-- ==== Sys2Proof/Word.lean ====
section
/-! DEFINITION. The word types of the machine (00_scope.md R6, R8). -/

namespace Sys2Proof

/-- The data width: a register A, X, Y, SP or one memory cell (R6 `XLEN`, `SP_WIDTH`). -/
abbrev Byte := BitVec 8

/-- A 16-bit value: the program counter, an absolute operand, a popped address (R6 `PC_WIDTH`). -/
abbrev Word := BitVec 16

/-- The width of `total_cycles` (R6 `CYCLES_WIDTH`). -/
abbrev Count := BitVec 64

end Sys2Proof
end

