-- ==== Sys2Proof/Machine/Bytes.lean ====
section
/-! DEFINITION. Byte slices and byte order (00_scope.md R8; 20_memory.md R40). -/

namespace Sys2Proof

/-- `lo8(v) = v[7:0]` (R8). -/
def lo8 (v : Word) : Byte := v.extractLsb' 0 8

/-- `hi8(v) = v[15:8]` (R8). -/
def hi8 (v : Word) : Byte := v.extractLsb' 8 8

/-- `{hi, lo} = hi * 256 + lo` (R8). -/
def joinBytes (hi lo : Byte) : Word := hi ++ lo

/-- The low 8 bits of a wide value (R93: "write its low 8 bits to `A`"). -/
def truncate8 (wide : Nat) : Byte := BitVec.ofNat 8 wide

end Sys2Proof
end

