-- ==== Sys2Proof/Config.lean ====
section
/-! DEFINITION. What is fixed for this hardware: the parameters of 00_scope.md R6 and the closed sets of operations,
formats and access kinds that the open parameters of Machine/Params.lean are keyed by. -/

namespace Sys2Proof

/-- The nine operation tags (R3, R67: "closed enumeration, one variant per supported opcode"). -/
inductive Op where
  | brk | aslA | clc | rolA | rts | adcImm | adcAbs | staAbs | ldaImm
  deriving DecidableEq, Repr

/-- Every operation tag, in the order of the opcode map (R66). -/
def Op.all : List Op := [.brk, .aslA, .clc, .rolA, .rts, .adcImm, .adcAbs, .staAbs, .ldaImm]

/-- The three instruction formats, one per addressing mode (30_encoding.md R60 to R63). -/
inductive Format where
  | imp   -- implied or accumulator, 1 byte
  | imm   -- immediate, 2 bytes
  | abs   -- absolute, 3 bytes
  deriving DecidableEq, Repr

/-- The kinds of ordinary memory access that 20_memory.md R43 gives a fixed guard to. -/
inductive Access where
  | opcodeFetch | operandFetch | dataWrite | dataRead | hostDump
  deriving DecidableEq, Repr

/-- The bit position of each flag in the packed status byte (parameter `STATUS_LAYOUT` of R7; 10_state.md R17). -/
structure StatusLayout where
  n : Nat
  v : Nat
  u : Nat
  b : Nat
  d : Nat
  i : Nat
  z : Nat
  c : Nat
  deriving DecidableEq, Repr

namespace Config

/-- `MEM_SIZE` (R6): the full 16-bit address range. -/
def memSize : Nat := 65536

/-- `STACK_BASE` (R6). -/
def stackBase : Nat := 0x0100

/-- `STACK_TOP` (R6). -/
def stackTop : Nat := 0x01FF

/-- `SP_EMPTY` (R6): the empty position of the stack pointer, also its reset value. -/
def spEmpty : Byte := 0xFF

/-- `BRK_OPCODE` (R6): also the sentinel byte of load_program (50_host_interface.md R142). -/
def brkOpcode : Byte := 0x00

/-- `LDA_IMM_OPCODE` (R6). -/
def ldaImmOpcode : Byte := 0xA9

end Config

end Sys2Proof
end

