-- ==== Sys2Proof/Machine/Params.lean ====
section
/-! DEFINITION. The parameters the document leaves open, each with the spec's default, in one place (00_scope.md R7),
and the tables keyed by operation. `LAUNCH`, the sixth parameter, is the state argument of `exec` and `step`. -/

namespace Sys2Proof.Params

/-- The format of each operation (30_encoding.md R66, column "format"). -/
def format : Op → Format
  | .brk => .imp
  | .aslA => .imp
  | .clc => .imp
  | .rolA => .imp
  | .rts => .imp
  | .adcImm => .imm
  | .adcAbs => .abs
  | .staAbs => .abs
  | .ldaImm => .imm

/-- Bytes that follow the opcode in each format (R61 to R63). -/
def formatOperands : Format → Nat
  | .imp => 0
  | .imm => 1
  | .abs => 2

/-- The number of operand bytes of an operation. -/
def operandCount (op : Op) : Nat := formatOperands (format op)

/-- The length in bytes of an operation's instruction: 1, 2 or 3 (R65, R66). -/
def length (op : Op) : Nat := operandCount op + 1

/-- Parameter `OPCODE` (R66). UNVERIFIED: all but 0x00 and 0xA9 are the spec's decision D9 (log entry 3). -/
def opcode : Op → Byte
  | .brk => Config.brkOpcode
  | .aslA => 0x0A
  | .clc => 0x18
  | .rolA => 0x2A
  | .rts => 0x60
  | .adcImm => 0x69
  | .adcAbs => 0x6D
  | .staAbs => 0x8D
  | .ldaImm => Config.ldaImmOpcode

/-- Parameter `CYCLES` (R66, R200). UNVERIFIED: all but LDA # are the spec's decision D10 (log entry 4). -/
def cycles : Op → Nat
  | .brk => 7
  | .aslA => 2
  | .clc => 2
  | .rolA => 2
  | .rts => 6
  | .adcImm => 2
  | .adcAbs => 4
  | .staAbs => 4
  | .ldaImm => 2

/-- Parameter `STATUS_LAYOUT` (10_state.md R17). UNVERIFIED: bits 6 to 1 are the spec's decision D8 (log entry 5). -/
def statusLayout : StatusLayout := { n := 7, v := 6, u := 5, b := 4, d := 3, i := 2, z := 1, c := 0 }

/-- Parameter `ADC_SETS_V` (43_arithmetic.md R113). UNVERIFIED: the spec's decision D11 (log entry 6). -/
def adcSetsV : Bool := false

/-- Parameter `MEM_INIT` (10_state.md R22): what a cell nothing has written reads as.
UNVERIFIED: the spec's decision D7 (log entry 7). -/
def memInit : Byte := 0x00

/-- The guard of each kind of ordinary access (20_memory.md R43): `true` closes the stack page.
UNVERIFIED for `dataRead`: the spec's decision D13 (log entry 15). -/
def guard : Access → Bool
  | .opcodeFetch => true
  | .operandFetch => true
  | .dataWrite => true
  | .dataRead => true
  | .hostDump => false

end Sys2Proof.Params
end

