-- ==== Sys2Proof/Machine/State.lean ====
section
/-! DEFINITION. The state of the core (10_state.md), the outcomes a step records, and the state after reset (R22). -/

namespace Sys2Proof.Machine

/-- The errors of the memory primitives, by name (60_exceptions.md R160, level "primitive"). -/
inductive MemError where
  | outOfBounds
  | programTooLarge
  | pushEmptyInput
  | pushOutOfSpace
  | popZeroBytesRequested
  | popStackEmpty
  | popTooManyBytesRequested
  deriving DecidableEq, Repr

/-- Why the fetch stage failed (R160, R81). -/
inductive FetchFailure where
  | fetchError (k : MemError)    -- the opcode read or the operand read failed
  | unknownOpcode (b : Byte)     -- the opcode byte is not in the opcode map
  deriving DecidableEq, Repr

/-- The outcome a step returns (R80, R160). -/
inductive StepOutcome where
  | ok
  | fetchFailed (e : FetchFailure)
  | execError (k : MemError)
  deriving DecidableEq, Repr

/-- The eight status flags, "never stored packed internally" (R15). -/
structure Flags where
  c : Bool
  z : Bool
  i : Bool
  d : Bool
  b : Bool
  v : Bool
  n : Bool
  u : Bool
  deriving DecidableEq, Repr

/-- The 65,536 cells (R20) as (address, byte) pairs: addresses strictly rising, no entry equal to what an unlisted
address reads as (`Memory.wf`, Machine/Ops.lean). -/
abbrev Memory := List Host.Cell

/-- Everything 10_state.md gives the machine, and the model's own record `lastOutcome` (log entry 2). -/
structure State where
  pc : Word                   -- R11
  sp : Byte                   -- R12
  a : Byte                    -- R13
  x : Byte                    -- R14
  y : Byte                    -- R14
  flags : Flags               -- R15, R16
  totalCycles : Count         -- R18
  halted : Bool               -- R19
  mem : Memory                -- R20
  lastOutcome : StepOutcome   -- the model's own (R162, decision D22): the outcome the last step returned
  deriving DecidableEq, Repr

/-- Faults that stop the machine: NONE, so the type has no constructor. The document: "There is no global/fatal
error" (R162); a failing step is a next state that records its error in `lastOutcome` and from which the core can be
stepped again (R143, R163). DESIGN CHOICE, safe: log entry 1. -/
inductive Fault where
  deriving DecidableEq, Repr

/-- Refusals. -/
inductive Refusal where
  /-- An instruction of the opcode table that has no meaning yet; raised by an arm of `exec` only. No arm raises it
  now: every row has its meaning. Safe. -/
  | notModelled (mnemonic : String)
  deriving DecidableEq, Repr

/-- The flags after reset (R22). -/
def Flags.reset : Flags :=
  { c := false, z := true, i := true, d := false, b := false, v := false, n := false, u := true }

/-- The state after reset (R22, R190). `halted` is the spec's decision D6, the empty list (every byte `MEM_INIT`)
its decision D7; `lastOutcome` is the model's own, DESIGN CHOICE (log entry 2). -/
def State.reset : State :=
  { pc := 0x0000, sp := Config.spEmpty, a := 0x00, x := 0x00, y := 0x00, flags := Flags.reset,
    totalCycles := 0, halted := false, mem := [], lastOutcome := .ok }

end Sys2Proof.Machine
end

