-- ==== Sys2Proof/Machine/Flags.lean ====
section
/-! DEFINITION. The flag computations: FlagUpdate, PackStatus, the optional overflow flag of ADC. -/

namespace Sys2Proof.Machine

/-- `FlagUpdate(result8, wide)` (40_step_and_flag_update.md R90): writes exactly B, N, Z, C. -/
def flagUpdate (f : Flags) (result : Byte) (wide : Nat) : Flags :=
  { f with b := false, n := result.msb, z := result == 0, c := decide (0xFF < wide) }

/-- One flag at its position of the status byte. -/
def statusBit (f : Bool) (position : Nat) : Byte := if f then 1#8 <<< position else 0#8

/-- `PackStatus(b)` (10_state.md R17) under a given `STATUS_LAYOUT`. -/
def packStatusAs (l : StatusLayout) (f : Flags) (b : Bool) : Byte :=
  statusBit f.n l.n ||| statusBit f.v l.v ||| statusBit f.u l.u ||| statusBit b l.b |||
  statusBit f.d l.d ||| statusBit f.i l.i ||| statusBit f.z l.z ||| statusBit f.c l.c

/-- `PackStatus(b)` (R17): `b` is the value placed in the break position. -/
def packStatus (f : Flags) (b : Bool) : Byte := packStatusAs Params.statusLayout f b

/-- The overflow flag after an addition (43_arithmetic.md R113): written only under `ADC_SETS_V = true`, by
`(A[7] = M[7] and wide[7] != A[7])` with `A` as it was before the addition. -/
def adcOverflow (setsV old : Bool) (a m result : Byte) : Bool :=
  if setsV then a.msb == m.msb && result.msb != a.msb else old

end Sys2Proof.Machine
end

