-- ==== Sys2Proof/Machine/Ops.lean ====
section
/-! DEFINITION. The named operations over memory and registers: the cells, the five primitives of 20_memory.md, the
register writes, the shared frame of an execute (R83, R86), the trap entry of BRK (R168) and the return beside it. -/

namespace Sys2Proof.Machine

/-! ## Cells -/

/-- The byte at `addr`. An unlisted address reads as `MEM_INIT` (10_state.md R22). -/
def Memory.get : Memory → Nat → Byte
  | [], _ => Params.memInit
  | (k, v) :: rest, addr => if k = addr then v else Memory.get rest addr

/-- Write one byte and keep the canonical form. -/
def Memory.put : Memory → Nat → Byte → Memory
  | [], addr, v => if v = Params.memInit then [] else [(addr, v)]
  | (k, w) :: rest, addr, v =>
    if k < addr then (k, w) :: Memory.put rest addr v
    else if k = addr then (if v = Params.memInit then rest else (addr, v) :: rest)
    else (if v = Params.memInit then (k, w) :: rest else (addr, v) :: (k, w) :: rest)

/-- Canonical from `low` up: addresses strictly rising from at least `low`, inside the address space, and no entry
that an unlisted address would read as. -/
def Memory.wfFrom : Nat → Memory → Bool
  | _, [] => true
  | low, (k, v) :: rest =>
    decide (low ≤ k) && decide (k < Config.memSize) && (v != Params.memInit) && Memory.wfFrom (k + 1) rest

/-- The canonical form of a memory. -/
def Memory.wf (m : Memory) : Bool := Memory.wfFrom 0 m

/-- Write bytes at ascending addresses. -/
def Memory.putUp : Memory → Nat → List Byte → Memory
  | m, _, [] => m
  | m, addr, b :: bs => Memory.putUp (Memory.put m addr b) (addr + 1) bs

/-- Write bytes at descending addresses. -/
def Memory.putDown : Memory → Nat → List Byte → Memory
  | m, _, [] => m
  | m, addr, b :: bs => Memory.putDown (Memory.put m addr b) (addr - 1) bs

/-! ## The primitives of 20_memory.md -/

/-- The access check (R32). Addresses are natural numbers: one above 0xFFFF is rejected, never wrapped. -/
def admitted (addr : Nat) (guard : Bool) : Bool :=
  decide (addr < Config.memSize) &&
    !(guard && decide (Config.stackBase ≤ addr) && decide (addr ≤ Config.stackTop))

/-- `MemRead(addr, 1, g)` (R33). -/
def readByte (m : Memory) (addr : Nat) (guard : Bool) : Except MemError Byte :=
  if admitted addr guard then .ok (m.get addr) else .error .outOfBounds

/-- `MemRead(addr, n, g)` (R34): all of the bytes or `OutOfBounds`. -/
def readBytes (m : Memory) (addr n : Nat) (guard : Bool) : Except MemError (List Byte) :=
  if (List.range n).all (fun k => admitted (addr + k) guard) then
    .ok ((List.range n).map fun k => m.get (addr + k))
  else .error .outOfBounds

/-- `MemWrite(addr, 1, v, g)` (R35). -/
def writeByte (m : Memory) (addr : Nat) (v : Byte) (guard : Bool) : Except MemError Memory :=
  if admitted addr guard then .ok (m.put addr v) else .error .outOfBounds

/-- The address of a stack position (R36). -/
def stackAddr (sp : Byte) : Nat := Config.stackBase + sp.toNat

/-- `StackPush(sp, bytes)` (R37): both checks precede every write. It does not write SP (R39). -/
def stackPush (m : Memory) (sp : Byte) (bytes : List Byte) : Except MemError Memory :=
  if bytes.length = 0 then .error .pushEmptyInput
  else if bytes.length > sp.toNat + 1 then .error .pushOutOfSpace
  else .ok (m.putDown (stackAddr sp) bytes)

/-- `StackPop(sp, n)` (R38): ascending from `0x0100 + sp + 1`; checks in the order zero, empty, too many. It writes
nothing (R39). -/
def stackPop (m : Memory) (sp : Byte) (n : Nat) : Except MemError (List Byte) :=
  if n = 0 then .error .popZeroBytesRequested
  else if sp = Config.spEmpty then .error .popStackEmpty
  else if sp.toNat + n > Config.spEmpty.toNat then .error .popTooManyBytesRequested
  else .ok ((List.range n).map fun k => m.get (stackAddr sp + 1 + k))

/-! ## Register writes -/

def State.setPc (s : State) (v : Word) : State := { s with pc := v }
def State.setSp (s : State) (v : Byte) : State := { s with sp := v }
def State.setA (s : State) (v : Byte) : State := { s with a := v }
def State.setFlags (s : State) (f : Flags) : State := { s with flags := f }
def State.setMem (s : State) (m : Memory) : State := { s with mem := m }
def State.setTotalCycles (s : State) (v : Count) : State := { s with totalCycles := v }
def State.setHalted (s : State) (v : Bool) : State := { s with halted := v }
def State.setLastOutcome (s : State) (o : StepOutcome) : State := { s with lastOutcome := o }

/-! ## The shared parts of a step -/

/-- Cycle accounting (40_step_and_flag_update.md R84): modulo 2^64 (10_state.md R18). -/
def charge (op : Op) (s : State) : State :=
  s.setTotalCycles (s.totalCycles + BitVec.ofNat 64 (Params.cycles op))

/-- `PC <- PC +16 length` (R85): modulo 65536 (10_state.md R11). -/
def advance (op : Op) (s : State) : State := s.setPc (s.pc + BitVec.ofNat 16 (Params.length op))

/-- FlagUpdate applied to the state's flags (R90). -/
def updateFlags (result : Byte) (wide : Nat) (s : State) : State := s.setFlags (flagUpdate s.flags result wide)

/-- Write the low byte of a wide value to A and update the flags from both (R93, R91). -/
def writeA (wide : Nat) (s : State) : State :=
  updateFlags (truncate8 wide) wide (s.setA (truncate8 wide))

/-- The execute stage (R83, R86): the cost is added first, then the effect runs. If the effect raises, nothing but the
cost has happened and the outcome is `ExecError(k)` (60_exceptions.md R161). -/
def execute (op : Op) (effect : State → Except MemError State) (s : State) : Host.Outcome State Fault Refusal :=
  match effect (charge op s) with
  | .ok t => .next (t.setLastOutcome .ok)
  | .error k => .next ((charge op s).setLastOutcome (.execError k))

/-- A failing fetch (R82): no state changes; the outcome is recorded. -/
def failFetch (e : FetchFailure) (s : State) : State := s.setLastOutcome (.fetchFailed e)

/-! ## The BRK trap and the return from the stack -/

/-- The three bytes a BRK pushes, in push order (45_control_system.md R120): the high and the low byte of `PC +16 2`
and the status byte with its break position forced to 1. -/
def trapFrame (s : State) : List Byte := [hi8 (s.pc + 2), lo8 (s.pc + 2), packStatus s.flags true]

/-- Trap entry (60_exceptions.md R168): save the frame, lower SP by 3, set B, go on at `PC +16 1`. No vector, no mode,
no mask. The push is the only part that can fail. -/
def takeTrap (s : State) : Except MemError State :=
  (stackPush s.mem s.sp (trapFrame s)).map fun m =>
    (((s.setMem m).setSp (s.sp - 3)).setFlags { s.flags with b := true }).setPc (s.pc + 1)

/-- Return through the stack (R121): pop two bytes, low byte first, raise SP by 2, load PC. There is no return from
trap (60_exceptions.md R169). -/
def returnFromStack (s : State) : Except MemError State :=
  (stackPop s.mem s.sp 2).map fun r => (s.setSp (s.sp + 2)).setPc (joinBytes (r.getD 1 0) (r.getD 0 0))

end Sys2Proof.Machine
end

