-- ==== Sys2Proof/Machine/Operands.lean ====
section
/-! DEFINITION. The operand forms at execute time (41_load_store.md R102). An immediate operand is the byte itself; an
implied operand is A or a flag; what is left is the absolute form, read by ADC abs and written by STA abs. -/

namespace Sys2Proof.Machine

/-- The byte address an absolute operand names (R64: no index, no indirection). -/
def absAddr (ea : Word) : Nat := ea.toNat

/-- `M = MemRead(EA, 1, guard=1)` (R102, R112). -/
def readAbs (ea : Word) (s : State) : Except MemError Byte :=
  readByte s.mem (absAddr ea) (Params.guard .dataRead)

/-- `MemWrite(EA, 1, v, guard=1)` (R102, R101). -/
def writeAbs (ea : Word) (v : Byte) (s : State) : Except MemError State :=
  (writeByte s.mem (absAddr ea) v (Params.guard .dataWrite)).map s.setMem

end Sys2Proof.Machine
end

