-- ==== Sys2Proof/Machine/Arithmetic.lean ====
section
/-! DEFINITION. Arithmetic instructions (43_arithmetic.md). -/

namespace Sys2Proof.Machine

/-- `Add(M)` (R110) under a given `ADC_SETS_V` (R113). D is not read (R114). -/
def addWithCarryAs (setsV : Bool) (m : Byte) (s : State) : State :=
  let wide := s.a.toNat + m.toNat + s.flags.c.toNat
  writeA wide (s.setFlags { s.flags with v := adcOverflow setsV s.flags.v s.a m (truncate8 wide) })

/-- `Add(M)` (R110). -/
def addWithCarry (m : Byte) (s : State) : State := addWithCarryAs Params.adcSetsV m s

/-- The effect of ADC #imm8 (R111). -/
def effectAdcImm (imm : Byte) (s : State) : Except MemError State := .ok (advance .adcImm (addWithCarry imm s))

/-- The effect of ADC abs (R112). -/
def effectAdcAbs (ea : Word) (s : State) : Except MemError State :=
  (readAbs ea s).map fun m => advance .adcAbs (addWithCarry m s)

/-- ADC #imm8 (R111). -/
def execAdcImm (imm : Byte) (s : State) : Host.Outcome State Fault Refusal := execute .adcImm (effectAdcImm imm) s

/-- ADC abs (R112). -/
def execAdcAbs (ea : Word) (s : State) : Host.Outcome State Fault Refusal := execute .adcAbs (effectAdcAbs ea) s

end Sys2Proof.Machine
end

