-- ==== Sys2Proof/Machine/ControlSystem.lean ====
section
/-! DEFINITION. Control-transfer and system instructions (45_control_system.md). -/

namespace Sys2Proof.Machine

/-- BRK (R120). -/
def execBrk (s : State) : Host.Outcome State Fault Refusal := execute .brk takeTrap s

/-- RTS (R121): PC is the popped address itself, not the sequential advance. -/
def execRts (s : State) : Host.Outcome State Fault Refusal := execute .rts returnFromStack s

end Sys2Proof.Machine
end

