-- ==== Sys2Proof/Machine/FlagOps.lean ====
section
/-! DEFINITION. Flag instructions (44_flag_ops.md). -/

namespace Sys2Proof.Machine

/-- The effect of CLC (R117): C only; it does not call FlagUpdate. -/
def effectClc (s : State) : Except MemError State := .ok (advance .clc (s.setFlags { s.flags with c := false }))

/-- CLC (R117). -/
def execClc (s : State) : Host.Outcome State Fault Refusal := execute .clc effectClc s

end Sys2Proof.Machine
end

