-- ==== Sys2Proof/Machine/LoadStore.lean ====
section
/-! DEFINITION. Load and store instructions (41_load_store.md). -/

namespace Sys2Proof.Machine

/-- The effect of LDA #imm8 (R100). -/
def effectLdaImm (imm : Byte) (s : State) : Except MemError State := .ok (advance .ldaImm (writeA imm.toNat s))

/-- The effect of STA abs (R101): the flags are updated from A, on success only, with the wide value `zext(A)` (R91). -/
def effectStaAbs (ea : Word) (s : State) : Except MemError State :=
  (writeAbs ea s.a s).map fun t => advance .staAbs (updateFlags t.a t.a.toNat t)

/-- LDA #imm8 (R100). -/
def execLdaImm (imm : Byte) (s : State) : Host.Outcome State Fault Refusal := execute .ldaImm (effectLdaImm imm) s

/-- STA abs (R101). -/
def execStaAbs (ea : Word) (s : State) : Host.Outcome State Fault Refusal := execute .staAbs (effectStaAbs ea) s

end Sys2Proof.Machine
end

