-- ==== Sys2Proof/Machine/ShiftRotate.lean ====
section
/-! DEFINITION. Shift and rotate instructions (42_shift_rotate.md): always by one bit (R107). -/

namespace Sys2Proof.Machine

/-- The effect of ASL A (R105). -/
def effectAslA (s : State) : Except MemError State := .ok (advance .aslA (writeA (s.a.toNat * 2) s))

/-- The effect of ROL A (R106): the carry before the step enters bit 0. -/
def effectRolA (s : State) : Except MemError State :=
  .ok (advance .rolA (writeA (s.a.toNat * 2 + s.flags.c.toNat) s))

/-- ASL A (R105). -/
def execAslA (s : State) : Host.Outcome State Fault Refusal := execute .aslA effectAslA s

/-- ROL A (R106). -/
def execRolA (s : State) : Host.Outcome State Fault Refusal := execute .rolA effectRolA s

end Sys2Proof.Machine
end

