-- ==== Sys2Proof/Syntax.lean ====
section
/-! DEFINITION. The instructions, one constructor per row of spec/opcode_table.json (30_encoding.md R66). -/

namespace Sys2Proof

/-- An instruction with its operand assembled (R64): an immediate is a byte, an absolute operand the 16-bit
effective address. -/
inductive Instr where
  | brk                    -- R120
  | aslA                   -- R105
  | clc                    -- R117
  | rolA                   -- R106
  | rts                    -- R121
  | adcImm (imm : Byte)    -- R111
  | adcAbs (ea : Word)     -- R112
  | staAbs (ea : Word)     -- R101
  | ldaImm (imm : Byte)    -- R100
  deriving DecidableEq, Repr

/-- The operation tag of an instruction (R67). -/
def Instr.op : Instr → Op
  | .brk => .brk
  | .aslA => .aslA
  | .clc => .clc
  | .rolA => .rolA
  | .rts => .rts
  | .adcImm _ => .adcImm
  | .adcAbs _ => .adcAbs
  | .staAbs _ => .staAbs
  | .ldaImm _ => .ldaImm

end Sys2Proof
end

