-- ==== Sys2Proof/Machine/Dispatch.lean ====
section
/-! DEFINITION. One arm per instruction. -/

namespace Sys2Proof.Machine

def exec (i : Instr) (s : State) : Host.Outcome State Fault Refusal :=
  match i with
  | .brk => Sys2Proof.Machine.execBrk s
  | .aslA => Sys2Proof.Machine.execAslA s
  | .clc => Sys2Proof.Machine.execClc s
  | .rolA => Sys2Proof.Machine.execRolA s
  | .rts => Sys2Proof.Machine.execRts s
  | .adcImm imm => Sys2Proof.Machine.execAdcImm imm s
  | .adcAbs ea => Sys2Proof.Machine.execAdcAbs ea s
  | .staAbs ea => Sys2Proof.Machine.execStaAbs ea s
  | .ldaImm imm => Sys2Proof.Machine.execLdaImm imm s

end Sys2Proof.Machine
end

