-- ==== Sys2Proof/WellFormed.lean ====
section
/-! DEFINITION. The decoded-instruction record of 30_encoding.md R67 and the check that it has the form R67 gives it.
The operands of `Instr` are a byte or a 16-bit address, and R69 makes all their values legal, so the type `Instr`
itself leaves nothing to check; what can be ill-formed is the record the decoder produces. -/

namespace Sys2Proof

/-- The decoder's output `(op, operands, cost)` (R67). It is never stored (10_state.md R21). -/
structure Decoded where
  op : Op
  operands : List Byte
  cost : Nat
  deriving DecidableEq, Repr

/-- R67: `operands` is "length fixed per operation". -/
def Decoded.operandsOk (d : Decoded) : Bool := d.operands.length == Params.length d.op - 1

/-- R67: `cost = CYCLES[op]`. -/
def Decoded.costOk (d : Decoded) : Bool := d.cost == Params.cycles d.op

/-- The record has the form R67 gives it. -/
def Decoded.wellFormed (d : Decoded) : Bool := d.operandsOk && d.costOk

end Sys2Proof
end

