-- ==== Sys2Proof/Decode.lean ====
section
/-! DEFINITION. The decoder, total on any sequence of bytes, and the encoder (30_encoding.md). -/

namespace Sys2Proof

/-- The opcode map read by its first column (R66): a row is selected when byte 0 equals its opcode. -/
def lookupOp (b : Byte) : Option Op := Op.all.find? fun op => Params.opcode op == b

/-- The operand byte at offset `k` after the opcode. -/
def operandByte (operands : List Byte) (k : Nat) : Byte := operands.getD k 0

/-- The 16-bit operand, low byte first (R64, R40). -/
def operandWord (operands : List Byte) : Word := joinBytes (operandByte operands 1) (operandByte operands 0)

/-- Operand assembly (R64), given the operation and its operand bytes. -/
def assemble (op : Op) (operands : List Byte) : Instr :=
  match op with
  | .brk => .brk
  | .aslA => .aslA
  | .clc => .clc
  | .rolA => .rolA
  | .rts => .rts
  | .adcImm => .adcImm (operandByte operands 0)
  | .adcAbs => .adcAbs (operandWord operands)
  | .staAbs => .staAbs (operandWord operands)
  | .ldaImm => .ldaImm (operandByte operands 0)

/-- Why a sequence of bytes is not an instruction. -/
inductive DecodeError where
  | noBytes                    -- the sequence is empty
  | unknownOpcode (b : Byte)   -- byte 0 is not in the opcode map (R68)
  | truncated (op : Op)        -- fewer operand bytes than the format has
  deriving DecidableEq, Repr

/-- Decode one instruction from the front of `bytes` and answer it with the bytes left over. -/
def decode : List Byte → Except DecodeError (Instr × List Byte)
  | [] => .error .noBytes
  | b :: rest =>
    match lookupOp b with
    | none => .error (.unknownOpcode b)
    | some op =>
      if rest.length < Params.operandCount op then .error (.truncated op)
      else .ok (assemble op (rest.take (Params.operandCount op)), rest.drop (Params.operandCount op))

/-- The operand bytes of an instruction, in ascending address order (R62, R63, R40). -/
def operandBytes : Instr → List Byte
  | .brk => []
  | .aslA => []
  | .clc => []
  | .rolA => []
  | .rts => []
  | .adcImm imm => [imm]
  | .adcAbs ea => [lo8 ea, hi8 ea]
  | .staAbs ea => [lo8 ea, hi8 ea]
  | .ldaImm imm => [imm]

/-- The bytes of an instruction: the opcode, then the operand bytes (R60). -/
def encode (i : Instr) : List Byte := Params.opcode i.op :: operandBytes i

/-- The decoded-instruction record of an instruction (R67). -/
def Instr.decoded (i : Instr) : Decoded :=
  { op := i.op, operands := operandBytes i, cost := Params.cycles i.op }

/-- The bytes of an instruction whose bits are `w` as spec/opcode_table.json numbers them: byte 0 in bits 7:0, byte 1
in bits 15:8, byte 2 in bits 23:16; the bits from `nbits` up are 0. -/
def tableBytes (nbits w : Nat) : List Byte :=
  let v := w % 2 ^ nbits
  [BitVec.ofNat 8 v, BitVec.ofNat 8 (v / 256), BitVec.ofNat 8 (v / 65536)]

/-- The instruction the decoder reads from those bytes. -/
def decodeTableWord (nbits w : Nat) : Option Instr :=
  match decode (tableBytes nbits w) with
  | .ok (i, _) => some i
  | .error _ => none

end Sys2Proof
end

