-- ==== Sys2Proof/Machine/Fetch.lean ====
section
/-! DEFINITION. The fetch stage (40_step_and_flag_update.md R81) and placing an instruction's bytes where it reads. -/

namespace Sys2Proof.Machine

/-- `Fetch(pc)` (R81): the opcode byte, the opcode map, then the operand bytes; the first failure met is the one
reported (60_exceptions.md R165). Operand addresses are natural numbers and do not wrap (R32). -/
def fetch (m : Memory) (pc : Word) : Except FetchFailure Instr :=
  match readByte m pc.toNat (Params.guard .opcodeFetch) with
  | .error k => .error (.fetchError k)
  | .ok b =>
    match lookupOp b with
    | none => .error (.unknownOpcode b)
    | some op =>
      match readBytes m (pc.toNat + 1) (Params.operandCount op) (Params.guard .operandFetch) with
      | .error k => .error (.fetchError k)
      | .ok operands => .ok (assemble op operands)

/-- Store bytes at ascending addresses, leaving out those above 0xFFFF (there is no cell there). -/
def placeBytes : Memory → Nat → List Byte → Memory
  | m, _, [] => m
  | m, addr, b :: bs => placeBytes (if addr < Config.memSize then m.put addr b else m) (addr + 1) bs

/-- Place a table word's bytes where the next fetch reads (log entry 28). -/
def placeFetchWord (s : State) (nbits w : Nat) : State :=
  s.setMem (placeBytes s.mem s.pc.toNat (tableBytes nbits w))

end Sys2Proof.Machine
end

