-- ==== Sys2Proof/Machine/Step.lean ====
section
/-! DEFINITION. The step (40_step_and_flag_update.md R80). -/

namespace Sys2Proof.Machine

/-- `step()` (R80): fetch at PC, then execute. It does not read `halted` (10_state.md R19). -/
def step (s : State) : Host.Outcome State Fault Refusal :=
  match fetch s.mem s.pc with
  | .error e => .next (failFetch e s)
  | .ok i => exec i s

/-- `s` with a table word's bytes stored where `step` fetches its next instruction. -/
def State.withFetchWord (s : State) (nbits w : Nat) : State := placeFetchWord s nbits w

end Sys2Proof.Machine
end

