-- ==== Sys2Proof/Machine/Transactions.lean ====
section
/-! DEFINITION. The host's whole repertoire (50_host_interface.md R140), each transaction atomic and between steps
(R150), and the host's two loops over it (R147, R148). -/

namespace Sys2Proof.Machine

/-- The registers a getter can name (R145). -/
inductive RegName where
  | pc | sp | a | x | y
  deriving DecidableEq, Repr

/-- The flags a getter can name (R145). -/
inductive FlagName where
  | c | z | i | d | b | v | n | u
  deriving DecidableEq, Repr

/-- A transaction of R140 with its arguments. -/
inductive Transaction where
  | reset
  | loadProgram (start : Word) (bytes : List Byte) (guard : Bool)
  | step
  | setHalt
  | checkHalt
  | getRegister (r : RegName)
  | getFlag (f : FlagName)
  | getTotalCycles
  | getStatus
  | readBytes (addr count : Nat)
  deriving DecidableEq, Repr

/-- The result a transaction hands back to the host (R140, column "Result"). -/
inductive Response where
  | done
  | failed (k : MemError)
  | stepped (o : StepOutcome)
  | bit (v : Bool)
  | number (v : Nat)
  | bytes (l : List Byte)
  /-- The core refused the step: no step does (every instruction has its meaning). -/
  | refused (r : Refusal)
  deriving DecidableEq, Repr

/-- `load_program(start, bytes, g)` (R141, R142): the bytes, then one break opcode right after them; both checks precede
every write. -/
def loadProgram (m : Memory) (start : Word) (bytes : List Byte) (guard : Bool) : Except MemError Memory :=
  if start.toNat + bytes.length + 1 > Config.memSize then .error .programTooLarge
  else if guard && decide (start.toNat ≤ Config.stackTop) &&
      decide (start.toNat + bytes.length ≥ Config.stackBase) then .error .outOfBounds
  else .ok (m.putUp start.toNat (bytes ++ [Config.brkOpcode]))

/-- The register getters (R145). -/
def getRegister (s : State) : RegName → Nat
  | .pc => s.pc.toNat
  | .sp => s.sp.toNat
  | .a => s.a.toNat
  | .x => s.x.toNat
  | .y => s.y.toNat

/-- The flag getters (R145). -/
def getFlag (s : State) : FlagName → Bool
  | .c => s.flags.c
  | .z => s.flags.z
  | .i => s.flags.i
  | .d => s.flags.d
  | .b => s.flags.b
  | .v => s.flags.v
  | .n => s.flags.n
  | .u => s.flags.u

/-- The host's packed status, with the actual break flag (10_state.md R17). -/
def statusByte (s : State) : Byte := packStatus s.flags s.flags.b

/-- The host's memory dump: `MemRead(addr, count, guard=0)` (R146). -/
def dumpBytes (s : State) (addr count : Nat) : Except MemError (List Byte) :=
  readBytes s.mem addr count (Params.guard .hostDump)

/-- One transaction: what it answers and the state it leaves. -/
def transact (t : Transaction) (s : State) : Response × State :=
  match t with
  | .reset => (.done, State.reset)
  | .loadProgram start bytes guard =>
    match loadProgram s.mem start bytes guard with
    | .ok m => (.done, s.setMem m)
    | .error k => (.failed k, s)
  | .step =>
    match step s with
    | .next u => (.stepped u.lastOutcome, u)
    | .refused r => (.refused r, s)
  | .setHalt => (.done, s.setHalted true)
  | .checkHalt => (.bit s.halted, s)
  | .getRegister r => (.number (getRegister s r), s)
  | .getFlag f => (.bit (getFlag s f), s)
  | .getTotalCycles => (.number s.totalCycles.toNat, s)
  | .getStatus => (.number (statusByte s).toNat, s)
  | .readBytes addr count =>
    match dumpBytes s addr count with
    | .ok l => (.bytes l, s)
    | .error k => (.failed k, s)

/-- Transactions issued one after the other: the state they leave (R150: none overlaps another). -/
def transactAll : List Transaction → State → State
  | [], s => s
  | t :: rest, s => transactAll rest (transact t s).2

/-- A loop of the host (R147): at each boundary test `halted`, then step, then issue the transactions the host has for
that boundary (`set_halt` may be among them). It also ends right after a step whose state meets `stop`. `host` lists the
transactions of each iteration, and the loop makes no more iterations than it has entries (log entry 29). -/
def hostLoop (stop : State → Bool) : List (List Transaction) → State → State
  | [], s => s
  | between :: rest, s =>
    if s.halted then s
    else if stop (transact .step s).2 then (transact .step s).2
    else hostLoop stop rest (transactAll between (transact .step s).2)

/-- The host's run loop (R147): it does not look at the outcomes of its steps. -/
def runLoop (host : List (List Transaction)) (s : State) : State := hostLoop (fun _ => false) host s

/-- The debugger's continue mode (R148): after each step it looks at `B` and stops where `B = 1`, whatever the
outcome. DEDUCED where R148 and R149 differ: log entry 33. -/
def continueMode (host : List (List Transaction)) (s : State) : State := hostLoop (fun t => t.flags.b) host s

/-- A host that issues nothing between the steps of a loop of at most `fuel` iterations. -/
def unattended (fuel : Nat) : List (List Transaction) := List.replicate fuel []

end Sys2Proof.Machine
end

