-- ==== Sys2Proof/Safety.lean ====
section
/-! DEFINITION. What counts as a safe run and as the end of a run, in the terms claims use. -/

namespace Sys2Proof.Machine

/-- A step from `s` answers the state `t`. -/
def StepsTo (s t : State) : Prop := step s = .next t

/-- The last step returned Ok: no fault recorded (60_exceptions.md R162, decision D22). -/
def State.noFault (s : State) : Prop := s.lastOutcome = .ok

/-- `n` steps lead from `s` to `t` and each of them returned Ok. -/
inductive OkSteps : Nat → State → State → Prop where
  | none (s : State) : OkSteps 0 s s
  | more {n : Nat} {s t u : State} (first : StepsTo s t) (ok : t.noFault) (rest : OkSteps n t u) : OkSteps (n + 1) s u

/-- End of a run, first form (50_host_interface.md R149): `halted = 1` between steps. -/
def Halted (s : State) : Prop := s.halted = true

/-- A step from `s` with outcome Ok that leaves `B = 1` in `t`. -/
structure BreakStep (s t : State) : Prop where
  stepped : StepsTo s t
  ok : t.noFault
  broke : t.flags.b = true

/-- End of a run, second form (R149): among the transactions `run` issued one after the other from `s`, `t` is the state
right after the FIRST step whose outcome is Ok and after which `B = 1`. The core itself does not stop there. -/
inductive BreakStop : List Transaction → State → State → Prop where
  | here {s t : State} {rest : List Transaction} (first : BreakStep s t) : BreakStop (.step :: rest) s t
  | later {s t u : State} {rest : List Transaction} (first : StepsTo s t) (notYet : ¬ (t.noFault ∧ t.flags.b = true))
      (inRest : BreakStop rest t u) : BreakStop (.step :: rest) s u
  | between {s u : State} {x : Transaction} {rest : List Transaction} (noStep : x ≠ .step)
      (inRest : BreakStop rest (transact x s).2 u) : BreakStop (x :: rest) s u

/-- Fail-stuck (60_exceptions.md R163): every further step returns an error. -/
inductive FailsFor : Nat → State → Prop where
  | none (s : State) : FailsFor 0 s
  | more {n : Nat} {s t : State} (first : StepsTo s t) (bad : ¬ t.noFault) (rest : FailsFor n t) : FailsFor (n + 1) s

/-- The core is fail-stuck (R163). This is a fault, no end of run (R149). -/
def FailStuck (s : State) : Prop := ∀ n, FailsFor n s

/-- The states the documented host can produce: from reset, by transactions of R140. -/
inductive Reachable : State → Prop where
  | reset : Reachable State.reset
  | transaction {s : State} (before : Reachable s) (t : Transaction) : Reachable (transact t s).2

/-- The same instruction executed `n` times in a row, its steps' fetches left out. -/
def execTimes (i : Instr) : Nat → State → Host.Outcome State Fault Refusal
  | 0, s => .next s
  | n + 1, s =>
    match exec i s with
    | .next t => execTimes i n t
    | .refused r => .refused r

/-- The state after `n` step transactions, whatever their outcomes. -/
def afterSteps : Nat → State → State
  | 0, s => s
  | n + 1, s => afterSteps n (transact .step s).2

/-- The state after all iterations of a host's loop, whatever `halted` is at their boundaries: a step, then the host's
transactions, for each entry of `host`. -/
def afterRounds : List (List Transaction) → State → State
  | [], s => s
  | between :: rest, s => afterRounds rest (transactAll between (transact .step s).2)

/-- What a caller of FlagUpdate leaves for the wide value it passes (40_step_and_flag_update.md R90, R91): A is
`wide[7:0]`, the flags are the routine's. Whether ADC also writes V is no part of these rules (log entry 6), so V is taken
from the state after. -/
structure UpdatedFrom (s t : State) (wide : Nat) : Prop where
  result : t.a = BitVec.ofNat 8 wide
  flags : t.flags = flagUpdate { s.flags with v := t.flags.v } (BitVec.ofNat 8 wide) wide

/-- An address of the stack page (20_memory.md R31). -/
abbrev InStackPage (addr : Nat) : Prop := 0x0100 ≤ addr ∧ addr ≤ 0x01FF

/-- The memory is in its canonical form. -/
def MemoryCanonical (s : State) : Prop := s.mem.wf = true

/-- What holds "at every step from reset on" because no operation writes it (10_state.md R14, R16;
40_step_and_flag_update.md R92), under the default `ADC_SETS_V = false`. -/
structure UnwiredAtReset (s : State) : Prop where
  x : s.x = 0
  y : s.y = 0
  v : s.flags.v = false
  d : s.flags.d = false
  i : s.flags.i = true
  u : s.flags.u = true

/-- The invariant of the model. -/
structure Inv (s : State) : Prop where
  memory : MemoryCanonical s
  unwired : UnwiredAtReset s

end Sys2Proof.Machine
end

