-- ==== Sys2Proof/Certificates/Slice0/Obligations.lean ====
section
/-! DEFINITION. The statements about the model, each with the rule of the spec it comes from. Where a clause rests on a
decision the spec marks as its own, or on the model's record `lastOutcome`, the docstring names the log entry. -/

open Sys2Proof Sys2Proof.Machine

/-! ## Memory primitives -/

/-- R48: read after write, and the guard of the stack page, for every address of the space. -/
def Obligations.WriteThenReadReturnsValue : Prop :=
  ∀ (m : Memory) (addr : Nat) (v : Byte), m.wf = true → addr ≤ 65535 →
    (∃ m', writeByte m addr v false = .ok m' ∧ readByte m' addr false = .ok v) ∧
    (InStackPage addr →
      readByte m addr true = .error .outOfBounds ∧ writeByte m addr v true = .error .outOfBounds ∧
      (∃ w, readByte m addr false = .ok w) ∧ ∃ m', writeByte m addr v false = .ok m')

/-- R33: a byte read answers the cell if the access is admitted by R32, else `OutOfBounds`. -/
def Obligations.ByteReadAnswersCellOrOutOfBounds : Prop :=
  ∀ (m : Memory) (addr : Nat) (g : Bool),
    (addr ≤ 0xFFFF ∧ ¬ (g = true ∧ InStackPage addr) →
      readByte m addr g = .ok (m.get addr) ∧ readBytes m addr 1 g = .ok [m.get addr]) ∧
    (¬ (addr ≤ 0xFFFF ∧ ¬ (g = true ∧ InStackPage addr)) →
      readByte m addr g = .error .outOfBounds ∧ readBytes m addr 1 g = .error .outOfBounds)

/-- 20_memory.md section 2: a byte write changes one cell if the access is admitted, else it fails and changes nothing. -/
def Obligations.ByteWriteChangesOneCell : Prop :=
  ∀ (m : Memory) (addr : Nat) (v : Byte) (g : Bool), m.wf = true →
    (addr ≤ 0xFFFF ∧ ¬ (g = true ∧ InStackPage addr) →
      ∃ m', writeByte m addr v g = .ok m' ∧ m'.get addr = v ∧ (∀ other, other ≠ addr → m'.get other = m.get other) ∧
        m'.wf = true) ∧
    (¬ (addr ≤ 0xFFFF ∧ ¬ (g = true ∧ InStackPage addr)) → writeByte m addr v g = .error .outOfBounds)

/-- 20_memory.md section 2 (the rule of the multi-byte read; its empty count is the spec's inference): all bytes in
ascending order, or a failure exactly when one of them would fail. -/
def Obligations.MultiByteReadAllOrNothing : Prop :=
  ∀ (m : Memory) (addr n : Nat) (g : Bool),
    (readBytes m addr n g = .error .outOfBounds ↔ ∃ k, k < n ∧ readByte m (addr + k) g = .error .outOfBounds) ∧
    (∀ l, readBytes m addr n g = .ok l ↔ l.length = n ∧ ∀ k, k < n → readByte m (addr + k) g = .ok (l.getD k 0)) ∧
    readBytes m addr 0 g = .ok []

/-- 20_memory.md section 3: a push writes its bytes descending from the stack address and nothing else, or fails with
nothing written (the last is the spec's decision D17, log entry 18). -/
def Obligations.PushWritesDescending : Prop :=
  ∀ (m : Memory) (sp : Byte) (bytes : List Byte), m.wf = true →
    (bytes = [] → stackPush m sp bytes = .error .pushEmptyInput) ∧
    (bytes.length > sp.toNat + 1 → stackPush m sp bytes = .error .pushOutOfSpace) ∧
    (bytes ≠ [] → bytes.length ≤ sp.toNat + 1 →
      ∃ m', stackPush m sp bytes = .ok m' ∧
        (∀ k, k < bytes.length → m'.get (0x0100 + sp.toNat - k) = bytes.getD k 0) ∧
        (∀ addr, 0x0100 + sp.toNat < addr ∨ addr + bytes.length ≤ 0x0100 + sp.toNat → m'.get addr = m.get addr) ∧
        m'.wf = true)

/-- 20_memory.md section 3: a pop reads ascending from just above the stack position, with its three failures in the
order zero, empty, too many (the spec's decisions D18, D19, log entries 19, 20). -/
def Obligations.PopReadsAscending : Prop :=
  ∀ (m : Memory) (sp : Byte) (n : Nat),
    (n = 0 → stackPop m sp n = .error .popZeroBytesRequested) ∧
    (n ≠ 0 → sp = 0xFF → stackPop m sp n = .error .popStackEmpty) ∧
    (n ≠ 0 → sp ≠ 0xFF → sp.toNat + n > 0xFF → stackPop m sp n = .error .popTooManyBytesRequested) ∧
    (n ≠ 0 → sp.toNat + n ≤ 0xFF →
      ∃ l, stackPop m sp n = .ok l ∧ l.length = n ∧ ∀ k, k < n → l.getD k 0 = m.get (0x0100 + sp.toNat + 1 + k))

/-- 20_memory.md section 3: with the Executor's SP update, a pop of what was pushed answers the bytes in reverse; a push
that fills the page exactly leaves SP at the empty position, from which a pop fails (decisions D4, D18; log entries 11,
19). -/
def Obligations.PushThenPopReturnsReversed : Prop :=
  ∀ (m : Memory) (sp : Byte) (bytes : List Byte), m.wf = true → bytes ≠ [] →
    (bytes.length ≤ sp.toNat →
      ∃ m', stackPush m sp bytes = .ok m' ∧
        stackPop m' (sp - BitVec.ofNat 8 bytes.length) bytes.length = .ok bytes.reverse) ∧
    (bytes.length = sp.toNat + 1 →
      ∃ m', stackPush m sp bytes = .ok m' ∧
        stackPop m' (sp - BitVec.ofNat 8 bytes.length) bytes.length = .error .popStackEmpty)

/-! ## Flags -/

/-- 40_step_and_flag_update.md section 3: the routine writes exactly B, N, Z, C; and every caller leaves A and the flags
of the routine for the wide value it passes: LDA `zext(imm8)`, STA `zext(A)` (the spec's decision D15, log entry 16), ASL
`2A`, ROL `2A + C`, both ADC `A + M + C` (STA and ADC abs where their access succeeds: outside the stack page). -/
def Obligations.FlagUpdateWritesBNZC : Prop :=
  (∀ (f : Flags) (result : Byte) (wide : Nat),
    flagUpdate f result wide =
      { f with b := false, n := result.getLsbD 7, z := decide (result = 0x00), c := decide (wide > 0xFF) }) ∧
  (∀ (s : State),
    (∀ imm, ∃ t, exec (.ldaImm imm) s = .next t ∧ UpdatedFrom s t imm.toNat) ∧
    (∀ ea, ¬ InStackPage (absAddr ea) → ∃ t, exec (.staAbs ea) s = .next t ∧ UpdatedFrom s t s.a.toNat) ∧
    (∃ t, exec .aslA s = .next t ∧ UpdatedFrom s t (2 * s.a.toNat)) ∧
    (∃ t, exec .rolA s = .next t ∧ UpdatedFrom s t (2 * s.a.toNat + s.flags.c.toNat)) ∧
    (∀ imm, ∃ t, exec (.adcImm imm) s = .next t ∧ UpdatedFrom s t (s.a.toNat + imm.toNat + s.flags.c.toNat)) ∧
    (∀ ea, ¬ InStackPage (absAddr ea) → ∃ t, exec (.adcAbs ea) s = .next t ∧
      UpdatedFrom s t (s.a.toNat + (s.mem.get (absAddr ea)).toNat + s.flags.c.toNat)))

/-- 10_state.md section 2, packing (bits 6 to 1 are the spec's decision D8, log entry 5). -/
def Obligations.PackedStatusByte : Prop :=
  (∀ (f : Flags) (b : Bool),
    (packStatus f b).toNat = f.n.toNat * 128 + f.v.toNat * 64 + f.u.toNat * 32 + b.toNat * 16 + f.d.toNat * 8 +
      f.i.toNat * 4 + f.z.toNat * 2 + f.c.toNat) ∧
  statusByte State.reset = 0x26 ∧ packStatus State.reset.flags true = 0x36

/-! ## Instructions: results, completion and frame

Each conclusion is the whole next state, so everything not named is unchanged. `lastOutcome` is the model's record (log
entry 2); the costs are log entry 4, the wrap of PC log entry 9, the wrap of `total_cycles` log entry 12. -/

/-- 41_load_store.md, LDA #. -/
def Obligations.LdaImmResult : Prop :=
  ∀ (imm : Byte) (s : State),
    exec (.ldaImm imm) s = .next
      { s with
        a := imm
        flags := { s.flags with b := false, n := imm.getLsbD 7, z := decide (imm = 0x00), c := false }
        pc := s.pc + 2
        totalCycles := s.totalCycles + 2
        lastOutcome := .ok }

/-- 41_load_store.md, STA abs outside the stack page; C is cleared by the spec's decision D15 (log entry 16). -/
def Obligations.StaAbsResult : Prop :=
  ∀ (ea : Word) (s : State), s.mem.wf = true → ¬ InStackPage (absAddr ea) →
    ∃ t, exec (.staAbs ea) s = .next t ∧ t.mem.get (absAddr ea) = s.a ∧
      (∀ addr, addr ≠ absAddr ea → t.mem.get addr = s.mem.get addr) ∧
      t = { s with
        mem := t.mem
        flags := { s.flags with b := false, n := s.a.getLsbD 7, z := decide (s.a = 0x00), c := false }
        pc := s.pc + 3
        totalCycles := s.totalCycles + 4
        lastOutcome := .ok }

/-- 41_load_store.md, STA abs into the stack page: only the cost happens (decision D16, log entry 17). -/
def Obligations.StaAbsStackPageFails : Prop :=
  ∀ (ea : Word) (s : State), InStackPage (absAddr ea) →
    exec (.staAbs ea) s = .next
      { s with totalCycles := s.totalCycles + 4, lastOutcome := .execError .outOfBounds }

/-- 42_shift_rotate.md, ASL A: the flags from the old bits of A. -/
def Obligations.AslResult : Prop :=
  ∀ (s : State),
    exec .aslA s = .next
      { s with
        a := s.a <<< 1
        flags :=
          { s.flags with
            b := false
            n := s.a.getLsbD 6
            z := decide (s.a = 0x00 ∨ s.a = 0x80)
            c := s.a.getLsbD 7 }
        pc := s.pc + 1
        totalCycles := s.totalCycles + 2
        lastOutcome := .ok }

/-- 42_shift_rotate.md, ROL A: the old carry enters bit 0, the old bit 7 leaves to the carry. -/
def Obligations.RolResult : Prop :=
  ∀ (s : State),
    exec .rolA s = .next
      { s with
        a := s.a <<< 1 ||| (if s.flags.c then 1 else 0)
        flags :=
          { s.flags with
            b := false
            n := s.a.getLsbD 6
            z := decide (s.a &&& 0x7F = 0 ∧ s.flags.c = false)
            c := s.a.getLsbD 7 }
        pc := s.pc + 1
        totalCycles := s.totalCycles + 2
        lastOutcome := .ok }

/-- R107: the shift amount of ASL and ROL is one bit, whatever the accumulator holds: the nine bits carry and A after
are twice A before, plus what enters bit 0. -/
def Obligations.ShiftAmountIsOneBit : Prop :=
  ∀ (s : State),
    (∃ t, exec .aslA s = .next t ∧ t.flags.c.toNat * 256 + t.a.toNat = 2 * s.a.toNat) ∧
    (∃ t, exec .rolA s = .next t ∧ t.flags.c.toNat * 256 + t.a.toNat = 2 * s.a.toNat + s.flags.c.toNat)

/-- 42_shift_rotate.md, ROL A corner cases (the spec's inference): nine ROL in a row restore A and C. -/
def Obligations.NineRotationsRestore : Prop :=
  ∀ (s : State), ∃ t, execTimes .rolA 9 s = .next t ∧ t.a = s.a ∧ t.flags.c = s.flags.c

/-- 43_arithmetic.md, ADC #: unsigned sum with the carry; V kept (decision D11, log entry 6), D not read (D12, log entry
14). -/
def Obligations.AdcImmResult : Prop :=
  ∀ (imm : Byte) (s : State),
    exec (.adcImm imm) s = .next
      { s with
        a := s.a + imm + (if s.flags.c then 1 else 0)
        flags :=
          { s.flags with
            b := false
            n := (s.a + imm + (if s.flags.c then 1 else 0)).getLsbD 7
            z := decide ((s.a.toNat + imm.toNat + s.flags.c.toNat) % 256 = 0)
            c := decide (s.a.toNat + imm.toNat + s.flags.c.toNat > 0xFF) }
        pc := s.pc + 2
        totalCycles := s.totalCycles + 2
        lastOutcome := .ok }

/-- 43_arithmetic.md, ADC abs outside the stack page: the same sum with the byte at the effective address. -/
def Obligations.AdcAbsResult : Prop :=
  ∀ (ea : Word) (m : Byte) (s : State), ¬ InStackPage (absAddr ea) → s.mem.get (absAddr ea) = m →
    exec (.adcAbs ea) s = .next
      { s with
        a := s.a + m + (if s.flags.c then 1 else 0)
        flags :=
          { s.flags with
            b := false
            n := (s.a + m + (if s.flags.c then 1 else 0)).getLsbD 7
            z := decide ((s.a.toNat + m.toNat + s.flags.c.toNat) % 256 = 0)
            c := decide (s.a.toNat + m.toNat + s.flags.c.toNat > 0xFF) }
        pc := s.pc + 3
        totalCycles := s.totalCycles + 4
        lastOutcome := .ok }

/-- 43_arithmetic.md, ADC abs in the stack page (decisions D13, D14, D16; log entries 15, 17). -/
def Obligations.AdcAbsStackPageFails : Prop :=
  ∀ (ea : Word) (s : State), InStackPage (absAddr ea) →
    exec (.adcAbs ea) s = .next
      { s with totalCycles := s.totalCycles + 4, lastOutcome := .execError .outOfBounds }

/-- 43_arithmetic.md, the overflow flag (the formula is the spec's general knowledge, log entry 6): under
`ADC_SETS_V = true` V says that the signed sum leaves -128 .. 127, and nothing else differs from the default. -/
def Obligations.AdcOverflowUnderSetsV : Prop :=
  ∀ (m : Byte) (s : State),
    ((addWithCarryAs true m s).flags.v = true ↔
      (s.a.toInt + m.toInt + s.flags.c.toNat > 127 ∨ s.a.toInt + m.toInt + s.flags.c.toNat < -128)) ∧
    (addWithCarryAs false m s).flags.v = s.flags.v ∧
    ∀ v, (addWithCarryAs true m s).setFlags { (addWithCarryAs true m s).flags with v := v } =
      (addWithCarryAs false m s).setFlags { (addWithCarryAs false m s).flags with v := v }

/-- 44_flag_ops.md, CLC: C only, not B. -/
def Obligations.ClcResult : Prop :=
  ∀ (s : State),
    exec .clc s = .next
      { s with
        flags := { s.flags with c := false }
        pc := s.pc + 1
        totalCycles := s.totalCycles + 2
        lastOutcome := .ok }

/-- 45_control_system.md and 60_exceptions.md, BRK with at least three free slots: the frame, SP, B, PC + 1. SP wraps to
0xFF from 2 (decision D4, log entry 11). -/
def Obligations.BrkTakesTrap : Prop :=
  ∀ (s : State), s.mem.wf = true → 2 ≤ s.sp.toNat →
    ∃ t, exec .brk s = .next t ∧
      t.mem.get (stackAddr s.sp) = hi8 (s.pc + 2) ∧
      t.mem.get (stackAddr s.sp - 1) = lo8 (s.pc + 2) ∧
      t.mem.get (stackAddr s.sp - 2) = packStatus s.flags true ∧
      (∀ addr, addr ≠ stackAddr s.sp → addr ≠ stackAddr s.sp - 1 → addr ≠ stackAddr s.sp - 2 →
        t.mem.get addr = s.mem.get addr) ∧
      t = { s with
        mem := t.mem
        sp := s.sp - 3
        flags := { s.flags with b := true }
        pc := s.pc + 1
        totalCycles := s.totalCycles + 7
        lastOutcome := .ok }

/-- 45_control_system.md, BRK with fewer than three free slots (decisions D16, D17; log entries 17, 18). -/
def Obligations.BrkWithoutSpaceFails : Prop :=
  ∀ (s : State), s.sp.toNat < 2 →
    exec .brk s = .next { s with totalCycles := s.totalCycles + 7, lastOutcome := .execError .pushOutOfSpace }

/-- 45_control_system.md, RTS with two bytes on the stack: PC is the popped address itself, low byte first (decision
D20, log entry 21). -/
def Obligations.RtsResult : Prop :=
  ∀ (s : State) (lo hi : Byte), s.sp.toNat ≤ 0xFD →
    s.mem.get (stackAddr s.sp + 1) = lo → s.mem.get (stackAddr s.sp + 2) = hi →
    exec .rts s = .next
      { s with
        pc := BitVec.ofNat 16 (hi.toNat * 256 + lo.toNat)
        sp := s.sp + 2
        totalCycles := s.totalCycles + 6
        lastOutcome := .ok }

/-- 45_control_system.md, RTS with no byte or one byte on the stack (decisions D16, D19, D20; log entries 17, 20, 21). -/
def Obligations.RtsPopFails : Prop :=
  ∀ (s : State),
    (s.sp = 0xFF →
      exec .rts s = .next { s with totalCycles := s.totalCycles + 6, lastOutcome := .execError .popStackEmpty }) ∧
    (s.sp = 0xFE →
      exec .rts s = .next
        { s with totalCycles := s.totalCycles + 6, lastOutcome := .execError .popTooManyBytesRequested })

/-- 45_control_system.md section "How the two fit together" (the spec's inference): an RTS right after a BRK takes the
status byte as the low byte of PC. From SP = 2 the BRK leaves the empty position and the RTS fails (log entry 11). -/
def Obligations.RtsAfterBrkPopsStatus : Prop :=
  ∀ (s : State), s.mem.wf = true →
    (3 ≤ s.sp.toNat →
      ∃ t u, exec .brk s = .next t ∧ exec .rts t = .next u ∧ u.lastOutcome = .ok ∧
        u.pc = joinBytes (lo8 (s.pc + 2)) (packStatus s.flags true) ∧ u.sp = s.sp - 1 ∧ u.flags = t.flags ∧
        u.mem.get (stackAddr s.sp) = hi8 (s.pc + 2)) ∧
    (s.sp = 2 →
      ∃ t u, exec .brk s = .next t ∧ t.sp = 0xFF ∧ exec .rts t = .next u ∧ u.lastOutcome = .execError .popStackEmpty)

/-- 60_exceptions.md section 3: from SP = 0xFF exactly 85 BRK frames fit, and the next BRK fails. -/
def Obligations.BrkNestsEightyFiveDeep : Prop :=
  ∀ (s : State), s.sp = 0xFF →
    (∀ k, 1 ≤ k → k ≤ 85 → ∃ t, execTimes .brk k s = .next t ∧ t.lastOutcome = .ok ∧ t.sp.toNat = 0xFF - 3 * k) ∧
    ∃ t u, execTimes .brk 85 s = .next t ∧ exec .brk t = .next u ∧ u.lastOutcome = .execError .pushOutOfSpace

/-! ## Frames by shape -/

/-- The instructions that store nothing (LDA, ASL, ROL, both ADC, CLC, RTS), on every path: every byte of memory, X, Y,
I, D, V, U and `halted` unchanged; SP changed by RTS only; A by LDA, ASL, ROL, ADC only. -/
def Obligations.NonStoringFrame : Prop :=
  ∀ (i : Instr) (s t : State), i.op ∈ [Op.ldaImm, .aslA, .rolA, .adcImm, .adcAbs, .clc, .rts] →
    exec i s = .next t →
    (∀ addr, t.mem.get addr = s.mem.get addr) ∧ t.x = s.x ∧ t.y = s.y ∧ t.halted = s.halted ∧
    t.flags.i = s.flags.i ∧ t.flags.d = s.flags.d ∧ t.flags.v = s.flags.v ∧ t.flags.u = s.flags.u ∧
    (i ≠ .rts → t.sp = s.sp) ∧ (i = .clc ∨ i = .rts → t.a = s.a) ∧ (i = .rts → t.flags = s.flags) ∧
    (i = .clc → t.flags = { s.flags with c := false })

/-- The instructions that store (STA, BRK), on every path: no byte changes outside the one STA names or the three BRK
pushes to; A, X, Y, `halted` unchanged; of the flags STA leaves I, D, V, U and BRK leaves all but B; SP changed by BRK
only. -/
def Obligations.StoringFrame : Prop :=
  ∀ (s t : State),
    (∀ ea, exec (.staAbs ea) s = .next t →
      (∀ addr, addr ≠ absAddr ea → t.mem.get addr = s.mem.get addr) ∧ t.a = s.a ∧ t.x = s.x ∧ t.y = s.y ∧
      t.sp = s.sp ∧ t.halted = s.halted ∧ t.flags.i = s.flags.i ∧ t.flags.d = s.flags.d ∧ t.flags.v = s.flags.v ∧
      t.flags.u = s.flags.u) ∧
    (exec .brk s = .next t →
      (∀ addr, addr > stackAddr s.sp ∨ addr + 3 ≤ stackAddr s.sp → t.mem.get addr = s.mem.get addr) ∧ t.a = s.a ∧
      t.x = s.x ∧ t.y = s.y ∧ t.halted = s.halted ∧ t.flags = { s.flags with b := t.flags.b })

/-! ## Fetch, decode, step -/

/-- 40_step_and_flag_update.md section 1: when the bytes at PC, read with the fetch guard, are an instruction's bytes,
the step is that instruction's execute, with nothing around it. -/
def Obligations.StepRunsDecodedInstruction : Prop :=
  ∀ (i : Instr) (s : State), readBytes s.mem s.pc.toNat (encode i).length true = .ok (encode i) → step s = exec i s

/-- 40_step_and_flag_update.md section 1, the fetch stage: which error is reported where, in the order opcode byte,
opcode map, operand bytes; everywhere else the fetch answers an instruction of the operation the byte selects. -/
def Obligations.FetchFailsExactlyWhere : Prop :=
  ∀ (m : Memory) (pc : Word),
    (InStackPage pc.toNat → fetch m pc = .error (.fetchError .outOfBounds)) ∧
    (¬ InStackPage pc.toNat → lookupOp (m.get pc.toNat) = none →
      fetch m pc = .error (.unknownOpcode (m.get pc.toNat))) ∧
    (∀ op, ¬ InStackPage pc.toNat → lookupOp (m.get pc.toNat) = some op →
      (fetch m pc = .error (.fetchError .outOfBounds) ↔
        (Params.length op = 2 ∧ (pc = 0x00FF ∨ pc = 0xFFFF)) ∨
        (Params.length op = 3 ∧ (pc = 0x00FE ∨ pc = 0x00FF ∨ pc = 0xFFFE ∨ pc = 0xFFFF))) ∧
      ((∃ i, fetch m pc = .ok i ∧ i.op = op) ∨ fetch m pc = .error (.fetchError .outOfBounds)))

/-- 40_step_and_flag_update.md section 1: a failing fetch changes nothing (but the record of its outcome, log entry 2),
and repeating the step gives the same outcome and the same state. -/
def Obligations.FetchFailureChangesNothing : Prop :=
  ∀ (e : FetchFailure) (s : State), fetch s.mem s.pc = .error e →
    step s = .next { s with lastOutcome := .fetchFailed e } ∧
    step { s with lastOutcome := .fetchFailed e } = .next { s with lastOutcome := .fetchFailed e }

/-- 60_exceptions.md section 1: a step that returned an error changed nothing but `total_cycles` (and the record), and
leaves the core fail-stuck, with the same error at every repetition. -/
def Obligations.FailingStepLeavesCoreStuck : Prop :=
  ∀ (s t : State), StepsTo s t → ¬ t.noFault →
    t = { s with totalCycles := t.totalCycles, lastOutcome := t.lastOutcome } ∧
    (∀ u, StepsTo t u → u.lastOutcome = t.lastOutcome ∧ u.pc = s.pc) ∧
    FailStuck s ∧ FailStuck t

/-- 60_exceptions.md section 1: there is no global or fatal error: from every state a step answers a next state, and so
does every instruction. -/
def Obligations.EveryStepAnswersNext : Prop :=
  (∀ (s : State), ∃ t, step s = .next t) ∧ (∀ (i : Instr) (s : State), ∃ t, exec i s = .next t)

/-- 60_exceptions.md section 1, the table of execute errors per instruction: exactly which instruction fails on which
states, and with which kind. -/
def Obligations.ExecuteErrorsExactlyWhere : Prop :=
  ∀ (i : Instr) (s t : State) (k : MemError), exec i s = .next t →
    (t.lastOutcome = .execError k ↔
      (i = .brk ∧ s.sp.toNat < 2 ∧ k = .pushOutOfSpace) ∨
      (i = .rts ∧ s.sp = 0xFF ∧ k = .popStackEmpty) ∨
      (i = .rts ∧ s.sp = 0xFE ∧ k = .popTooManyBytesRequested) ∨
      (∃ ea, (i = .staAbs ea ∨ i = .adcAbs ea) ∧ InStackPage (absAddr ea) ∧ k = .outOfBounds))

/-- 40_step_and_flag_update.md section 2, cycle accounting: the declared cost once for every instruction that reaches
the execute stage, whether or not it succeeds; nothing for a failing fetch (decision D16 and costs: log entries 4, 17). -/
def Obligations.CyclesChargedOncePerExecute : Prop :=
  ∀ (s t : State), StepsTo s t →
    (∀ e, fetch s.mem s.pc = .error e → t.totalCycles = s.totalCycles) ∧
    (∀ i, fetch s.mem s.pc = .ok i →
      t.totalCycles = s.totalCycles +
        (match i.op with
          | .brk => 7 | .rts => 6 | .staAbs => 4 | .adcAbs => 4
          | .aslA => 2 | .rolA => 2 | .clc => 2 | .adcImm => 2 | .ldaImm => 2))

/-- 40_step_and_flag_update.md section 2, the PC of a step: by the instruction's length, or the popped address for RTS;
unchanged if the step failed (wrap: log entry 9). -/
def Obligations.ProgramCounterUpdate : Prop :=
  ∀ (s t : State), StepsTo s t →
    (¬ t.noFault → t.pc = s.pc) ∧
    (t.noFault → ∀ i, fetch s.mem s.pc = .ok i →
      (i.op ∈ [Op.brk, .aslA, .clc, .rolA] → t.pc = s.pc + 1) ∧
      (i.op ∈ [Op.ldaImm, .adcImm] → t.pc = s.pc + 2) ∧
      (i.op ∈ [Op.staAbs, .adcAbs] → t.pc = s.pc + 3) ∧
      (i = .rts → t.pc.toNat = (s.mem.get (stackAddr s.sp + 2)).toNat * 256 + (s.mem.get (stackAddr s.sp + 1)).toNat))

/-- 20_memory.md section 4, the consequence of the guards: a step changes a byte outside the stack page only by STA, at
the address it names, and a byte of the stack page only by BRK, at the three slots from SP down. -/
def Obligations.OnlyStaAndBrkWriteMemory : Prop :=
  ∀ (s t : State) (addr : Nat), StepsTo s t → t.mem.get addr ≠ s.mem.get addr →
    (∃ ea, fetch s.mem s.pc = .ok (.staAbs ea) ∧ addr = absAddr ea ∧ ¬ InStackPage addr ∧ t.noFault) ∨
    (fetch s.mem s.pc = .ok .brk ∧ InStackPage addr ∧ addr ≤ stackAddr s.sp ∧ stackAddr s.sp < addr + 3 ∧ t.noFault)

/-- 70_reset_and_hazards.md section 3, the sticky break flag: B is kept by CLC, RTS and failing steps, set by a
successful BRK, cleared by every other successful step. -/
def Obligations.BreakFlagAfterStep : Prop :=
  ∀ (s t : State), StepsTo s t →
    (¬ t.noFault → t.flags = s.flags) ∧
    (t.noFault → ∀ i, fetch s.mem s.pc = .ok i →
      (i = .clc ∨ i = .rts → t.flags.b = s.flags.b) ∧
      (i = .brk → t.flags.b = true) ∧
      (i ≠ .clc → i ≠ .rts → i ≠ .brk → t.flags.b = false))

/-- R16: U is 1 after reset, and nothing the core does and no transaction writes it. -/
def Obligations.UnusedFlagReadsOne : Prop :=
  State.reset.flags.u = true ∧ (∀ (s t : State), StepsTo s t → t.flags.u = s.flags.u) ∧
  (∀ (t : Transaction) (s : State), s.flags.u = true → (transact t s).2.flags.u = true)

/-- 40_step_and_flag_update.md section 3 and 10_state.md section 1 (the spec's inferences; V by decision D11, log entry
6): no step writes X, Y, V, D, I, U or `halted`. -/
def Obligations.StepKeepsUnwiredState : Prop :=
  ∀ (s t : State), StepsTo s t →
    t.x = s.x ∧ t.y = s.y ∧ t.flags.v = s.flags.v ∧ t.flags.d = s.flags.d ∧ t.flags.i = s.flags.i ∧
    t.flags.u = s.flags.u ∧ t.halted = s.halted

/-- 10_state.md section 3 and 60_exceptions.md section 1: no rule of the core depends on `total_cycles`, on `halted` or
on an earlier outcome: a step from a state that differs in these three alone does the same. -/
def Obligations.StepIgnoresCyclesHaltedOutcome : Prop :=
  ∀ (s t : State) (n : Count) (h : Bool) (o : StepOutcome), StepsTo s t →
    StepsTo { s with totalCycles := n, halted := h, lastOutcome := o }
      { t with totalCycles := n + (t.totalCycles - s.totalCycles), halted := h }

/-- 20_memory.md section 6 (the spec's inference): a store is seen by the next fetch of the address, whatever stood there
before: an unknown opcode if A is none of the nine, otherwise an instruction of the operation A selects, with the operand
bytes that follow, or the failure of their read. -/
def Obligations.StoreSeenByNextFetch : Prop :=
  ∀ (ea pc : Word) (s : State), s.mem.wf = true → ¬ InStackPage (absAddr ea) → pc.toNat = absAddr ea →
    ∃ t, exec (.staAbs ea) s = .next t ∧
      (lookupOp s.a = none → fetch t.mem pc = .error (.unknownOpcode s.a)) ∧
      (∀ op, lookupOp s.a = some op →
        (∀ operands, readBytes t.mem (pc.toNat + 1) (Params.operandCount op) true = .ok operands →
          fetch t.mem pc = .ok (assemble op operands) ∧ (assemble op operands).op = op) ∧
        (∀ k, readBytes t.mem (pc.toNat + 1) (Params.operandCount op) true = .error k →
          fetch t.mem pc = .error (.fetchError k)))

/-! ## Encoding -/

/-- 30_encoding.md: decoding the bytes of any instruction gives it back and leaves the rest. -/
def Obligations.DecodeOfEncode : Prop :=
  ∀ (i : Instr) (rest : List Byte), decode (encode i ++ rest) = .ok (i, rest)

/-- 30_encoding.md: what the decoder reads as an instruction is exactly that instruction's bytes. -/
def Obligations.EncodeOfDecode : Prop :=
  ∀ (bytes rest : List Byte) (i : Instr), decode bytes = .ok (i, rest) → bytes = encode i ++ rest

/-- 30_encoding.md section 4: 247 of the 256 opcode bytes are unknown and refused under their own value, whatever
follows (the nine values: log entry 3). -/
def Obligations.OtherOpcodesUnknown : Prop :=
  ((List.range 256).filter fun n => (lookupOp (BitVec.ofNat 8 n)).isNone).length = 247 ∧
  ∀ (b : Byte) (rest : List Byte), b ∉ [0x00, 0x0A, 0x18, 0x2A, 0x60, 0x69, 0x6D, 0x8D, 0xA9] →
    decode (b :: rest) = .error (.unknownOpcode b)

/-- 30_encoding.md sections 2 and 3: the words of the nine rows, with operands written out (values: log entry 3). -/
def Obligations.OpcodeMapWords : Prop :=
  (decode [0x00]).toOption = some (.brk, []) ∧ (decode [0x0A]).toOption = some (.aslA, []) ∧
  (decode [0x18]).toOption = some (.clc, []) ∧ (decode [0x2A]).toOption = some (.rolA, []) ∧
  (decode [0x60]).toOption = some (.rts, []) ∧ (decode [0x69, 0xFE]).toOption = some (.adcImm 0xFE, []) ∧
  (decode [0x6D, 0x34, 0x12]).toOption = some (.adcAbs 0x1234, []) ∧
  (decode [0x8D, 0x00, 0x20]).toOption = some (.staAbs 0x2000, []) ∧
  (decode [0xA9, 0x05]).toOption = some (.ldaImm 0x05, [])

/-- 20_memory.md section 5: the absolute operand is little-endian: the byte at PC+1 is the low byte. -/
def Obligations.AbsoluteOperandLowByteFirst : Prop :=
  ∀ (lo hi : Byte), ∃ ea : Word, ea.toNat = hi.toNat * 256 + lo.toNat ∧
    decode [0x8D, lo, hi] = .ok (.staAbs ea, []) ∧ decode [0x6D, lo, hi] = .ok (.adcAbs ea, [])

/-- Log entry 28: placing a table word where the next fetch reads makes the very next step run the instruction the
decoder reads from it, wherever three bytes can be fetched. -/
def Obligations.PlacedWordRunsNext : Prop :=
  ∀ (s : State) (nbits w : Nat) (i : Instr), s.mem.wf = true → decodeTableWord nbits w = some i →
    (s.pc.toNat + 2 < 0x0100 ∨ (0x01FF < s.pc.toNat ∧ s.pc.toNat + 2 ≤ 0xFFFF)) →
    step (s.withFetchWord nbits w) = exec i (s.withFetchWord nbits w)

/-! ## Host transactions -/

/-- R144: set_halt sets `halted`, check_halt answers it, no transaction but reset clears it, and a set flag stops the
run loop at its next boundary: also one that the host sets between two steps of the loop, never inside a step. -/
def Obligations.HaltFlagTransactions : Prop :=
  (∀ (s : State), transact .setHalt s = (.done, { s with halted := true })) ∧
  (∀ (s : State), transact .checkHalt s = (.bit s.halted, s)) ∧
  (∀ (t : Transaction) (s : State), t ≠ .reset → s.halted = true → (transact t s).2.halted = true) ∧
  (∀ (host : List (List Transaction)) (s : State), s.halted = true → runLoop host s = s) ∧
  (∀ (between : List Transaction) (rest : List (List Transaction)) (s : State),
    s.halted = false → .setHalt ∈ between → .reset ∉ between →
    runLoop (between :: rest) s = transactAll between (transact .step s).2)

/-- R145: the getters answer the state's values and change nothing, and no transaction but reset and step writes PC, SP,
A, X, Y or a flag. -/
def Obligations.GettersReadOnly : Prop :=
  (∀ (s : State),
    transact (.getRegister .pc) s = (.number s.pc.toNat, s) ∧ transact (.getRegister .sp) s = (.number s.sp.toNat, s) ∧
    transact (.getRegister .a) s = (.number s.a.toNat, s) ∧ transact (.getRegister .x) s = (.number s.x.toNat, s) ∧
    transact (.getRegister .y) s = (.number s.y.toNat, s) ∧ transact (.getFlag .c) s = (.bit s.flags.c, s) ∧
    transact (.getFlag .z) s = (.bit s.flags.z, s) ∧ transact (.getFlag .i) s = (.bit s.flags.i, s) ∧
    transact (.getFlag .d) s = (.bit s.flags.d, s) ∧ transact (.getFlag .b) s = (.bit s.flags.b, s) ∧
    transact (.getFlag .v) s = (.bit s.flags.v, s) ∧ transact (.getFlag .n) s = (.bit s.flags.n, s) ∧
    transact (.getFlag .u) s = (.bit s.flags.u, s) ∧
    transact .getTotalCycles s = (.number s.totalCycles.toNat, s) ∧
    transact .getStatus s = (.number (packStatus s.flags s.flags.b).toNat, s)) ∧
  (∀ (t : Transaction) (s : State), t ≠ .reset → t ≠ .step →
    (transact t s).2.pc = s.pc ∧ (transact t s).2.sp = s.sp ∧ (transact t s).2.a = s.a ∧ (transact t s).2.x = s.x ∧
    (transact t s).2.y = s.y ∧ (transact t s).2.flags = s.flags)

/-- R146: the memory dump reads any range, the stack page included, fails only past 0xFFFF, and changes nothing. -/
def Obligations.DumpReadsAnyRange : Prop :=
  ∀ (addr count : Nat) (s : State),
    (transact (.readBytes addr count) s).2 = s ∧
    (addr + count ≤ 65536 →
      ∃ l, transact (.readBytes addr count) s = (.bytes l, s) ∧ l.length = count ∧
        ∀ k, k < count → l.getD k 0 = s.mem.get (addr + k)) ∧
    (0 < count → 65536 < addr + count → transact (.readBytes addr count) s = (.failed .outOfBounds, s))

/-- 50_host_interface.md section 1, load_program where it fits: the bytes, one 0x00 right after them, nothing else. -/
def Obligations.LoadProgramWritesBytesAndSentinel : Prop :=
  ∀ (start : Word) (bytes : List Byte) (g : Bool) (s : State), s.mem.wf = true →
    start.toNat + bytes.length + 1 ≤ 65536 →
    (g = true → start.toNat > 0x01FF ∨ start.toNat + bytes.length < 0x0100) →
    ∃ m, transact (.loadProgram start bytes g) s = (.done, { s with mem := m }) ∧
      (∀ k, k < bytes.length → m.get (start.toNat + k) = bytes.getD k 0) ∧
      m.get (start.toNat + bytes.length) = 0x00 ∧
      (∀ addr, addr < start.toNat ∨ start.toNat + bytes.length < addr → m.get addr = s.mem.get addr)

/-- 50_host_interface.md section 1, load_program where it does not fit: the two errors in their order, nothing written
(decision D21, log entry 22). -/
def Obligations.LoadProgramFailures : Prop :=
  ∀ (start : Word) (bytes : List Byte) (g : Bool) (s : State),
    (start.toNat + bytes.length + 1 > 65536 →
      transact (.loadProgram start bytes g) s = (.failed .programTooLarge, s)) ∧
    (start.toNat + bytes.length + 1 ≤ 65536 → g = true → start.toNat ≤ 0x01FF → 0x0100 ≤ start.toNat + bytes.length →
      transact (.loadProgram start bytes g) s = (.failed .outOfBounds, s))

/-- 50_host_interface.md section 2, loops between whose steps the host issues nothing, of at most `fuel` iterations (the
bound is the model's, log entry 29): the run loop takes steps and nothing else. Continue mode steps first and looks at B
after each step: it takes at least one step whatever B is before it, passes no state with B set on its way and stops early
only at one. That it also stops after a failing step that leaves B = 1 (a start with B = 1 whose first step fails) is the
model's reading where R148 and R149 differ: log entry 33, DEDUCED. From B = 0 the two agree: the state it stops at is the
break-stop of the steps. -/
def Obligations.HostLoopsStop : Prop :=
  ∀ (fuel : Nat) (s : State), s.halted = false →
    runLoop (unattended fuel) s = afterSteps fuel s ∧
    (∃ k, k ≤ fuel ∧ (0 < fuel → 0 < k) ∧ continueMode (unattended fuel) s = afterSteps k s ∧
      (∀ j, 0 < j → j < k → (afterSteps j s).flags.b = false) ∧ (k < fuel → (afterSteps k s).flags.b = true)) ∧
    (s.flags.b = false → ∀ t,
      BreakStop (List.replicate fuel .step) s t ↔ continueMode (unattended fuel) s = t ∧ t.flags.b = true)

/-- 50_host_interface.md section 2, loops between whose steps the host issues any transactions (`host` lists those of each
iteration and bounds the loop, log entry 29): the run loop ends at the first boundary where `halted` is set, or where
`host` ends. Continue mode ends there or, if that comes first, right after the first step that leaves B set, before the
host's transactions of that iteration; that a failing step from B = 1 ends it too, whatever its outcome, is the model's
reading where R148 and R149 differ: log entry 33, DEDUCED. -/
def Obligations.LoopsStopAtFirstBoundaryOrBreak : Prop :=
  ∀ (host : List (List Transaction)) (s : State),
    (∃ k, k ≤ host.length ∧ runLoop host s = afterRounds (host.take k) s ∧
      (∀ j, j < k → (afterRounds (host.take j) s).halted = false) ∧
      (k < host.length → (afterRounds (host.take k) s).halted = true)) ∧
    (∃ k, k ≤ host.length ∧
      (∀ j, j < k → (afterRounds (host.take j) s).halted = false ∧
        (afterSteps 1 (afterRounds (host.take j) s)).flags.b = false) ∧
      ((continueMode host s = afterRounds (host.take k) s ∧
          (k < host.length → (afterRounds (host.take k) s).halted = true)) ∨
        (continueMode host s = afterSteps 1 (afterRounds (host.take k) s) ∧ k < host.length ∧
          (afterRounds (host.take k) s).halted = false ∧
          (afterSteps 1 (afterRounds (host.take k) s)).flags.b = true)))

/-! ## Reset and invariants -/

/-- 10_state.md section 6 and 70_reset_and_hazards.md section 1: the state after reset (`halted` and the memory by the
spec's decisions D6, D7, log entries 13, 7; the record `lastOutcome` is left out). -/
def Obligations.ResetValues : Prop :=
  State.reset.pc = 0x0000 ∧ State.reset.sp = 0xFF ∧ State.reset.a = 0x00 ∧ State.reset.x = 0x00 ∧
  State.reset.y = 0x00 ∧ State.reset.flags.c = false ∧ State.reset.flags.z = true ∧ State.reset.flags.i = true ∧
  State.reset.flags.d = false ∧ State.reset.flags.b = false ∧ State.reset.flags.v = false ∧
  State.reset.flags.n = false ∧ State.reset.flags.u = true ∧ State.reset.totalCycles = 0 ∧
  State.reset.halted = false ∧ (∀ addr, State.reset.mem.get addr = 0x00) ∧
  ∀ s, transact .reset s = (.done, State.reset)

/-- The invariant of the model holds after reset. -/
def Obligations.ResetMeetsInvariant : Prop := Inv State.reset

/-- Every step keeps the memory canonical, and keeps X, Y, V, D, I, U at the values the spec says they hold "at every
step from reset on" (log entry 6 for V): from every state, reached or not. -/
def Obligations.StepKeepsInvariant : Prop := ∀ (s t : State), Inv s → step s = .next t → Inv t

/-- Every transaction keeps the invariant, so every state the documented host can produce has it. -/
def Obligations.ReachableStatesMeetInvariant : Prop :=
  (∀ (t : Transaction) (s : State), Inv s → Inv (transact t s).2) ∧ ∀ (s : State), Reachable s → Inv s
end

