-- ==== Sys2Proof/Laws/Decode.lean ====
section
/-! SUPPORT. The small lemmas of the decoder's parts. -/

namespace Sys2Proof

theorem joinBytes_toNat (hi lo : Byte) : (joinBytes hi lo).toNat = hi.toNat * 256 + lo.toNat := by
  have := lo.isLt
  rw [joinBytes, BitVec.toNat_append, ← Nat.shiftLeft_add_eq_or_of_lt this, Nat.shiftLeft_eq]

theorem lo8_toNat (v : Word) : (lo8 v).toNat = v.toNat % 256 := by simp [lo8, BitVec.extractLsb'_toNat]

theorem hi8_toNat (v : Word) : (hi8 v).toNat = v.toNat / 256 := by
  have := v.isLt
  simp only [hi8, BitVec.extractLsb'_toNat, Nat.shiftRight_eq_div_pow]
  omega

theorem joinBytes_hi8_lo8 (v : Word) : joinBytes (hi8 v) (lo8 v) = v := by
  apply BitVec.eq_of_toNat_eq
  rw [joinBytes_toNat, hi8_toNat, lo8_toNat]
  omega

theorem lo8_joinBytes (hi lo : Byte) : lo8 (joinBytes hi lo) = lo := by
  apply BitVec.eq_of_toNat_eq
  have := lo.isLt
  rw [lo8_toNat, joinBytes_toNat]
  omega

theorem hi8_joinBytes (hi lo : Byte) : hi8 (joinBytes hi lo) = hi := by
  apply BitVec.eq_of_toNat_eq
  have := lo.isLt
  rw [hi8_toNat, joinBytes_toNat]
  omega

/-- The opcodes of the map are distinct: looking one up gives its operation. -/
theorem lookupOp_opcode (op : Op) : lookupOp (Params.opcode op) = some op := by cases op <;> decide

/-- What is looked up has the opcode it was looked up by. -/
theorem opcode_of_lookupOp {b : Byte} {op : Op} (h : lookupOp b = some op) : Params.opcode op = b := by
  simpa using List.find?_some h

theorem operandBytes_length (i : Instr) : (operandBytes i).length = Params.operandCount i.op := by cases i <;> rfl

theorem encode_length (i : Instr) : (encode i).length = Params.length i.op := by
  simp [encode, Params.length, operandBytes_length]

@[simp] theorem assemble_op (op : Op) (operands : List Byte) : (assemble op operands).op = op := by cases op <;> rfl

end Sys2Proof
end

