-- ==== Sys2Proof/Laws/Memory.lean ====
section
/-! SUPPORT. The laws of the cells: read after write, the canonical form, and that it determines a memory. -/

namespace Sys2Proof.Machine

@[simp] theorem Memory.wfFrom_nil (low : Nat) : Memory.wfFrom low [] = true := rfl

@[simp] theorem Memory.get_nil (addr : Nat) : Memory.get [] addr = Params.memInit := rfl

theorem Memory.wfFrom_cons {low k : Nat} {v : Byte} {rest : Memory} :
    Memory.wfFrom low ((k, v) :: rest) = true ↔
      low ≤ k ∧ k < Config.memSize ∧ v ≠ Params.memInit ∧ Memory.wfFrom (k + 1) rest = true := by
  simp [Memory.wfFrom, and_assoc]

theorem Memory.wfFrom_mono {low low' : Nat} {m : Memory} (hl : low' ≤ low) (h : Memory.wfFrom low m = true) :
    Memory.wfFrom low' m = true := by
  cases m with
  | nil => rfl
  | cons c rest =>
    obtain ⟨hk, hrest⟩ := Memory.wfFrom_cons.mp h
    exact Memory.wfFrom_cons.mpr ⟨Nat.le_trans hl hk, hrest⟩

/-- Below its first listed address a canonical memory lists nothing. -/
theorem Memory.get_below {m : Memory} : ∀ {low addr : Nat}, Memory.wfFrom low m = true → addr < low →
    m.get addr = Params.memInit := by
  induction m with
  | nil => intros; rfl
  | cons c rest ih =>
    intro low addr h ha
    obtain ⟨hk, -, -, hrest⟩ := Memory.wfFrom_cons.mp h
    have hne : c.1 ≠ addr := by omega
    simpa [Memory.get, hne] using ih hrest (by omega)

/-- Read after write at the same address. -/
theorem Memory.get_put_same {m : Memory} (addr : Nat) (v : Byte) : ∀ {low : Nat}, Memory.wfFrom low m = true →
    (m.put addr v).get addr = v := by
  induction m with
  | nil => intro _ _; by_cases hv : v = Params.memInit <;> simp [Memory.put, Memory.get, hv]
  | cons c rest ih =>
    obtain ⟨k, w⟩ := c
    intro low h
    obtain ⟨-, -, -, hrest⟩ := Memory.wfFrom_cons.mp h
    rcases Nat.lt_trichotomy k addr with hlt | heq | hgt
    · simpa [Memory.put, Memory.get, hlt, Nat.ne_of_lt hlt] using ih hrest
    · subst heq
      by_cases hv : v = Params.memInit
      · simpa [Memory.put, hv] using Memory.get_below hrest (Nat.lt_succ_self k)
      · simp [Memory.put, Memory.get, hv]
    · have h1 : ¬ k < addr := by omega
      have h2 : ¬ k = addr := by omega
      by_cases hv : v = Params.memInit
      · simpa [Memory.put, Memory.get, h1, h2, hv] using Memory.get_below hrest (by omega : addr < k + 1)
      · simp [Memory.put, Memory.get, h1, h2, hv]

/-- A write leaves every other address alone. -/
theorem Memory.get_put_ne (m : Memory) {addr other : Nat} (v : Byte) (h : other ≠ addr) :
    (m.put addr v).get other = m.get other := by
  induction m with
  | nil => by_cases hv : v = Params.memInit <;> simp [Memory.put, Memory.get, hv, Ne.symm h]
  | cons c rest ih =>
    obtain ⟨k, w⟩ := c
    simp only [Memory.put]
    split_ifs with h1 h2 h3 h4
    · simp [Memory.get, ih]
    · simp [Memory.get, h2, Ne.symm h]
    · simp [Memory.get, h2, Ne.symm h]
    · rfl
    · simp [Memory.get, Ne.symm h]

theorem Memory.wfFrom_put {m : Memory} {addr : Nat} (v : Byte) (ha : addr < Config.memSize) : ∀ {low : Nat},
    Memory.wfFrom low m = true → low ≤ addr → Memory.wfFrom low (m.put addr v) = true := by
  induction m with
  | nil => intro low _ hl; by_cases hv : v = Params.memInit <;> simp [Memory.put, Memory.wfFrom, hv, hl, ha]
  | cons c rest ih =>
    obtain ⟨k, w⟩ := c
    intro low h hl
    obtain ⟨hk, hks, hw, hrest⟩ := Memory.wfFrom_cons.mp h
    simp only [Memory.put]
    split_ifs with h1 h2 h3 h4
    · exact Memory.wfFrom_cons.mpr ⟨hk, hks, hw, ih hrest (by omega)⟩
    · exact Memory.wfFrom_mono (by omega) hrest
    · exact Memory.wfFrom_cons.mpr ⟨hl, ha, h3, h2 ▸ hrest⟩
    · exact h
    · exact Memory.wfFrom_cons.mpr ⟨hl, ha, h4, Memory.wfFrom_cons.mpr ⟨by omega, hks, hw, hrest⟩⟩

/-- A write keeps the canonical form. -/
theorem Memory.put_wf {m : Memory} {addr : Nat} (v : Byte) (h : m.wf = true) (ha : addr < Config.memSize) :
    (m.put addr v).wf = true := Memory.wfFrom_put v ha h (Nat.zero_le _)

/-- Two canonical memories that read alike are the same list. -/
theorem Memory.wfFrom_ext : ∀ {m m' : Memory} {low : Nat}, Memory.wfFrom low m = true → Memory.wfFrom low m' = true →
    (∀ addr, m.get addr = m'.get addr) → m = m' := by
  intro m
  induction m with
  | nil =>
    intro m' low _ h' heq
    cases m' with
    | nil => rfl
    | cons c rest =>
      obtain ⟨-, -, hv, -⟩ := Memory.wfFrom_cons.mp h'
      exact absurd (by simpa [Memory.get] using (heq c.1).symm) hv
  | cons c rest ih =>
    obtain ⟨k, v⟩ := c
    intro m' low h h' heq
    obtain ⟨hk, hks, hv, hrest⟩ := Memory.wfFrom_cons.mp h
    cases m' with
    | nil => exact absurd (by simpa [Memory.get] using heq k) hv
    | cons c' rest' =>
      obtain ⟨k', v'⟩ := c'
      obtain ⟨hk', hks', hv', hrest'⟩ := Memory.wfFrom_cons.mp h'
      have hkk : k = k' := by
        rcases Nat.lt_trichotomy k k' with hlt | he | hgt
        · have hb := Memory.get_below (addr := k) hrest' (by omega)
          have hq := heq k
          simp only [Memory.get, if_true, Nat.ne_of_gt hlt, if_false, hb] at hq
          exact absurd hq hv
        · exact he
        · have hb := Memory.get_below (addr := k') hrest (by omega)
          have hq := heq k'
          simp only [Memory.get, if_true, Nat.ne_of_gt hgt, if_false, hb] at hq
          exact absurd hq.symm hv'
      subst hkk
      have hvv : v = v' := by simpa [Memory.get] using heq k
      subst hvv
      have hrr : rest = rest' := by
        refine ih hrest hrest' fun addr => ?_
        by_cases he : k = addr
        · subst he
          rw [Memory.get_below hrest (Nat.lt_succ_self k), Memory.get_below hrest' (Nat.lt_succ_self k)]
        · simpa [Memory.get, he] using heq addr
      rw [hrr]

/-- Equal canonical memories are equal data. -/
theorem Memory.wf_ext {m m' : Memory} (h : m.wf = true) (h' : m'.wf = true) (heq : ∀ addr, m.get addr = m'.get addr) :
    m = m' := Memory.wfFrom_ext h h' heq

/-! ## Runs of bytes -/

theorem Memory.putUp_wf {bs : List Byte} : ∀ {m : Memory} {addr : Nat}, m.wf = true →
    addr + bs.length ≤ Config.memSize → (m.putUp addr bs).wf = true := by
  induction bs with
  | nil => intro m addr h _; exact h
  | cons b bs ih =>
    intro m addr h hl
    simp only [List.length_cons] at hl
    exact ih (Memory.put_wf b h (by omega)) (by omega)

theorem Memory.putDown_wf {bs : List Byte} : ∀ {m : Memory} {addr : Nat}, m.wf = true → addr < Config.memSize →
    (m.putDown addr bs).wf = true := by
  induction bs with
  | nil => intro m addr h _; exact h
  | cons b bs ih => intro m addr h ha; exact ih (Memory.put_wf b h ha) (by omega)

/-- Outside the run nothing changes. -/
theorem Memory.get_putUp_outside {bs : List Byte} : ∀ {m : Memory} {addr other : Nat},
    (other < addr ∨ addr + bs.length ≤ other) → (m.putUp addr bs).get other = m.get other := by
  induction bs with
  | nil => intros; rfl
  | cons b bs ih =>
    intro m addr other h
    simp only [List.length_cons] at h
    rw [Memory.putUp, ih (by omega), Memory.get_put_ne m b (by omega)]

theorem Memory.get_putDown_outside {bs : List Byte} : ∀ {m : Memory} {addr other : Nat}, bs.length ≤ addr + 1 →
    (addr < other ∨ other + bs.length ≤ addr) → (m.putDown addr bs).get other = m.get other := by
  induction bs with
  | nil => intros; rfl
  | cons b bs ih =>
    intro m addr other hl h
    simp only [List.length_cons] at h hl
    cases bs with
    | nil => exact Memory.get_put_ne m b (by simp at h; omega)
    | cons b' bs' =>
      simp only [List.length_cons] at h hl ih
      rw [Memory.putDown, ih (by omega) (by omega), Memory.get_put_ne m b (by omega)]

/-- Inside the run the bytes stand in order. -/
theorem Memory.get_putUp_inside {bs : List Byte} : ∀ {m : Memory} {addr : Nat}, m.wf = true →
    addr + bs.length ≤ Config.memSize → ∀ {k : Nat}, k < bs.length →
    (m.putUp addr bs).get (addr + k) = bs.getD k 0 := by
  induction bs with
  | nil => intro _ _ _ _ k hk; simp at hk
  | cons b bs ih =>
    intro m addr h hl k hk
    simp only [List.length_cons] at hl hk
    have hp : (m.put addr b).wf = true := Memory.put_wf b h (by omega)
    cases k with
    | zero =>
      rw [Memory.putUp, Memory.get_putUp_outside (by omega)]
      simpa using Memory.get_put_same addr b h
    | succ k =>
      have := ih hp (by omega : addr + 1 + bs.length ≤ Config.memSize) (k := k) (by omega)
      rw [Memory.putUp, show addr + (k + 1) = addr + 1 + k by omega, this]
      simp

theorem Memory.get_putDown_inside {bs : List Byte} : ∀ {m : Memory} {addr : Nat}, m.wf = true →
    addr < Config.memSize → bs.length ≤ addr + 1 → ∀ {k : Nat}, k < bs.length →
    (m.putDown addr bs).get (addr - k) = bs.getD k 0 := by
  induction bs with
  | nil => intro _ _ _ _ _ k hk; simp at hk
  | cons b bs ih =>
    intro m addr h ha hl k hk
    simp only [List.length_cons] at hl hk
    have hp : (m.put addr b).wf = true := Memory.put_wf b h ha
    cases k with
    | zero =>
      cases bs with
      | nil => simpa [Memory.putDown] using Memory.get_put_same addr b h
      | cons b' bs' =>
        simp only [List.length_cons] at hl
        rw [Memory.putDown, Memory.get_putDown_outside (by simp only [List.length_cons]; omega) (by omega)]
        simpa using Memory.get_put_same addr b h
    | succ k =>
      have := ih hp (by omega : addr - 1 < Config.memSize) (by omega) (k := k) (by omega)
      rw [Memory.putDown, show addr - (k + 1) = addr - 1 - k by omega, this]
      simp

end Sys2Proof.Machine
end

