-- ==== Sys2Proof/Laws/State.lean ====
section
/-! SUPPORT. One lemma per field per register write, and per field per shared state change of Machine/Ops.lean, so that
no later proof unfolds a record update. -/

namespace Sys2Proof.Machine

/-! ### setPc -/

@[simp] theorem State.setPc_pc (s : State) (v : Word) : (s.setPc v).pc = v := rfl
@[simp] theorem State.setPc_sp (s : State) (v : Word) : (s.setPc v).sp = s.sp := rfl
@[simp] theorem State.setPc_a (s : State) (v : Word) : (s.setPc v).a = s.a := rfl
@[simp] theorem State.setPc_x (s : State) (v : Word) : (s.setPc v).x = s.x := rfl
@[simp] theorem State.setPc_y (s : State) (v : Word) : (s.setPc v).y = s.y := rfl
@[simp] theorem State.setPc_flags (s : State) (v : Word) : (s.setPc v).flags = s.flags := rfl
@[simp] theorem State.setPc_totalCycles (s : State) (v : Word) : (s.setPc v).totalCycles = s.totalCycles := rfl
@[simp] theorem State.setPc_halted (s : State) (v : Word) : (s.setPc v).halted = s.halted := rfl
@[simp] theorem State.setPc_mem (s : State) (v : Word) : (s.setPc v).mem = s.mem := rfl
@[simp] theorem State.setPc_lastOutcome (s : State) (v : Word) : (s.setPc v).lastOutcome = s.lastOutcome := rfl

/-! ### setSp -/

@[simp] theorem State.setSp_pc (s : State) (v : Byte) : (s.setSp v).pc = s.pc := rfl
@[simp] theorem State.setSp_sp (s : State) (v : Byte) : (s.setSp v).sp = v := rfl
@[simp] theorem State.setSp_a (s : State) (v : Byte) : (s.setSp v).a = s.a := rfl
@[simp] theorem State.setSp_x (s : State) (v : Byte) : (s.setSp v).x = s.x := rfl
@[simp] theorem State.setSp_y (s : State) (v : Byte) : (s.setSp v).y = s.y := rfl
@[simp] theorem State.setSp_flags (s : State) (v : Byte) : (s.setSp v).flags = s.flags := rfl
@[simp] theorem State.setSp_totalCycles (s : State) (v : Byte) : (s.setSp v).totalCycles = s.totalCycles := rfl
@[simp] theorem State.setSp_halted (s : State) (v : Byte) : (s.setSp v).halted = s.halted := rfl
@[simp] theorem State.setSp_mem (s : State) (v : Byte) : (s.setSp v).mem = s.mem := rfl
@[simp] theorem State.setSp_lastOutcome (s : State) (v : Byte) : (s.setSp v).lastOutcome = s.lastOutcome := rfl

/-! ### setA -/

@[simp] theorem State.setA_pc (s : State) (v : Byte) : (s.setA v).pc = s.pc := rfl
@[simp] theorem State.setA_sp (s : State) (v : Byte) : (s.setA v).sp = s.sp := rfl
@[simp] theorem State.setA_a (s : State) (v : Byte) : (s.setA v).a = v := rfl
@[simp] theorem State.setA_x (s : State) (v : Byte) : (s.setA v).x = s.x := rfl
@[simp] theorem State.setA_y (s : State) (v : Byte) : (s.setA v).y = s.y := rfl
@[simp] theorem State.setA_flags (s : State) (v : Byte) : (s.setA v).flags = s.flags := rfl
@[simp] theorem State.setA_totalCycles (s : State) (v : Byte) : (s.setA v).totalCycles = s.totalCycles := rfl
@[simp] theorem State.setA_halted (s : State) (v : Byte) : (s.setA v).halted = s.halted := rfl
@[simp] theorem State.setA_mem (s : State) (v : Byte) : (s.setA v).mem = s.mem := rfl
@[simp] theorem State.setA_lastOutcome (s : State) (v : Byte) : (s.setA v).lastOutcome = s.lastOutcome := rfl

/-! ### setFlags -/

@[simp] theorem State.setFlags_pc (s : State) (v : Flags) : (s.setFlags v).pc = s.pc := rfl
@[simp] theorem State.setFlags_sp (s : State) (v : Flags) : (s.setFlags v).sp = s.sp := rfl
@[simp] theorem State.setFlags_a (s : State) (v : Flags) : (s.setFlags v).a = s.a := rfl
@[simp] theorem State.setFlags_x (s : State) (v : Flags) : (s.setFlags v).x = s.x := rfl
@[simp] theorem State.setFlags_y (s : State) (v : Flags) : (s.setFlags v).y = s.y := rfl
@[simp] theorem State.setFlags_flags (s : State) (v : Flags) : (s.setFlags v).flags = v := rfl
@[simp] theorem State.setFlags_totalCycles (s : State) (v : Flags) : (s.setFlags v).totalCycles = s.totalCycles := rfl
@[simp] theorem State.setFlags_halted (s : State) (v : Flags) : (s.setFlags v).halted = s.halted := rfl
@[simp] theorem State.setFlags_mem (s : State) (v : Flags) : (s.setFlags v).mem = s.mem := rfl
@[simp] theorem State.setFlags_lastOutcome (s : State) (v : Flags) : (s.setFlags v).lastOutcome = s.lastOutcome := rfl

/-! ### setMem -/

@[simp] theorem State.setMem_pc (s : State) (v : Memory) : (s.setMem v).pc = s.pc := rfl
@[simp] theorem State.setMem_sp (s : State) (v : Memory) : (s.setMem v).sp = s.sp := rfl
@[simp] theorem State.setMem_a (s : State) (v : Memory) : (s.setMem v).a = s.a := rfl
@[simp] theorem State.setMem_x (s : State) (v : Memory) : (s.setMem v).x = s.x := rfl
@[simp] theorem State.setMem_y (s : State) (v : Memory) : (s.setMem v).y = s.y := rfl
@[simp] theorem State.setMem_flags (s : State) (v : Memory) : (s.setMem v).flags = s.flags := rfl
@[simp] theorem State.setMem_totalCycles (s : State) (v : Memory) : (s.setMem v).totalCycles = s.totalCycles := rfl
@[simp] theorem State.setMem_halted (s : State) (v : Memory) : (s.setMem v).halted = s.halted := rfl
@[simp] theorem State.setMem_mem (s : State) (v : Memory) : (s.setMem v).mem = v := rfl
@[simp] theorem State.setMem_lastOutcome (s : State) (v : Memory) : (s.setMem v).lastOutcome = s.lastOutcome := rfl

/-! ### setTotalCycles -/

@[simp] theorem State.setTotalCycles_pc (s : State) (v : Count) : (s.setTotalCycles v).pc = s.pc := rfl
@[simp] theorem State.setTotalCycles_sp (s : State) (v : Count) : (s.setTotalCycles v).sp = s.sp := rfl
@[simp] theorem State.setTotalCycles_a (s : State) (v : Count) : (s.setTotalCycles v).a = s.a := rfl
@[simp] theorem State.setTotalCycles_x (s : State) (v : Count) : (s.setTotalCycles v).x = s.x := rfl
@[simp] theorem State.setTotalCycles_y (s : State) (v : Count) : (s.setTotalCycles v).y = s.y := rfl
@[simp] theorem State.setTotalCycles_flags (s : State) (v : Count) : (s.setTotalCycles v).flags = s.flags := rfl
@[simp] theorem State.setTotalCycles_totalCycles (s : State) (v : Count) : (s.setTotalCycles v).totalCycles = v := rfl
@[simp] theorem State.setTotalCycles_halted (s : State) (v : Count) : (s.setTotalCycles v).halted = s.halted := rfl
@[simp] theorem State.setTotalCycles_mem (s : State) (v : Count) : (s.setTotalCycles v).mem = s.mem := rfl
@[simp] theorem State.setTotalCycles_lastOutcome (s : State) (v : Count) : (s.setTotalCycles v).lastOutcome = s.lastOutcome := rfl

/-! ### setHalted -/

@[simp] theorem State.setHalted_pc (s : State) (v : Bool) : (s.setHalted v).pc = s.pc := rfl
@[simp] theorem State.setHalted_sp (s : State) (v : Bool) : (s.setHalted v).sp = s.sp := rfl
@[simp] theorem State.setHalted_a (s : State) (v : Bool) : (s.setHalted v).a = s.a := rfl
@[simp] theorem State.setHalted_x (s : State) (v : Bool) : (s.setHalted v).x = s.x := rfl
@[simp] theorem State.setHalted_y (s : State) (v : Bool) : (s.setHalted v).y = s.y := rfl
@[simp] theorem State.setHalted_flags (s : State) (v : Bool) : (s.setHalted v).flags = s.flags := rfl
@[simp] theorem State.setHalted_totalCycles (s : State) (v : Bool) : (s.setHalted v).totalCycles = s.totalCycles := rfl
@[simp] theorem State.setHalted_halted (s : State) (v : Bool) : (s.setHalted v).halted = v := rfl
@[simp] theorem State.setHalted_mem (s : State) (v : Bool) : (s.setHalted v).mem = s.mem := rfl
@[simp] theorem State.setHalted_lastOutcome (s : State) (v : Bool) : (s.setHalted v).lastOutcome = s.lastOutcome := rfl

/-! ### setLastOutcome -/

@[simp] theorem State.setLastOutcome_pc (s : State) (v : StepOutcome) : (s.setLastOutcome v).pc = s.pc := rfl
@[simp] theorem State.setLastOutcome_sp (s : State) (v : StepOutcome) : (s.setLastOutcome v).sp = s.sp := rfl
@[simp] theorem State.setLastOutcome_a (s : State) (v : StepOutcome) : (s.setLastOutcome v).a = s.a := rfl
@[simp] theorem State.setLastOutcome_x (s : State) (v : StepOutcome) : (s.setLastOutcome v).x = s.x := rfl
@[simp] theorem State.setLastOutcome_y (s : State) (v : StepOutcome) : (s.setLastOutcome v).y = s.y := rfl
@[simp] theorem State.setLastOutcome_flags (s : State) (v : StepOutcome) : (s.setLastOutcome v).flags = s.flags := rfl
@[simp] theorem State.setLastOutcome_totalCycles (s : State) (v : StepOutcome) : (s.setLastOutcome v).totalCycles = s.totalCycles := rfl
@[simp] theorem State.setLastOutcome_halted (s : State) (v : StepOutcome) : (s.setLastOutcome v).halted = s.halted := rfl
@[simp] theorem State.setLastOutcome_mem (s : State) (v : StepOutcome) : (s.setLastOutcome v).mem = s.mem := rfl
@[simp] theorem State.setLastOutcome_lastOutcome (s : State) (v : StepOutcome) : (s.setLastOutcome v).lastOutcome = v := rfl

/-! ### charge -/

@[simp] theorem charge_pc (op : Op) (s : State) : (charge op s).pc = s.pc := rfl
@[simp] theorem charge_sp (op : Op) (s : State) : (charge op s).sp = s.sp := rfl
@[simp] theorem charge_a (op : Op) (s : State) : (charge op s).a = s.a := rfl
@[simp] theorem charge_x (op : Op) (s : State) : (charge op s).x = s.x := rfl
@[simp] theorem charge_y (op : Op) (s : State) : (charge op s).y = s.y := rfl
@[simp] theorem charge_flags (op : Op) (s : State) : (charge op s).flags = s.flags := rfl
@[simp] theorem charge_totalCycles (op : Op) (s : State) : (charge op s).totalCycles = s.totalCycles + BitVec.ofNat 64 (Params.cycles op) := rfl
@[simp] theorem charge_halted (op : Op) (s : State) : (charge op s).halted = s.halted := rfl
@[simp] theorem charge_mem (op : Op) (s : State) : (charge op s).mem = s.mem := rfl
@[simp] theorem charge_lastOutcome (op : Op) (s : State) : (charge op s).lastOutcome = s.lastOutcome := rfl

/-! ### advance -/

@[simp] theorem advance_pc (op : Op) (s : State) : (advance op s).pc = s.pc + BitVec.ofNat 16 (Params.length op) := rfl
@[simp] theorem advance_sp (op : Op) (s : State) : (advance op s).sp = s.sp := rfl
@[simp] theorem advance_a (op : Op) (s : State) : (advance op s).a = s.a := rfl
@[simp] theorem advance_x (op : Op) (s : State) : (advance op s).x = s.x := rfl
@[simp] theorem advance_y (op : Op) (s : State) : (advance op s).y = s.y := rfl
@[simp] theorem advance_flags (op : Op) (s : State) : (advance op s).flags = s.flags := rfl
@[simp] theorem advance_totalCycles (op : Op) (s : State) : (advance op s).totalCycles = s.totalCycles := rfl
@[simp] theorem advance_halted (op : Op) (s : State) : (advance op s).halted = s.halted := rfl
@[simp] theorem advance_mem (op : Op) (s : State) : (advance op s).mem = s.mem := rfl
@[simp] theorem advance_lastOutcome (op : Op) (s : State) : (advance op s).lastOutcome = s.lastOutcome := rfl

/-! ### updateFlags -/

@[simp] theorem updateFlags_pc (r : Byte) (w : Nat) (s : State) : (updateFlags r w s).pc = s.pc := rfl
@[simp] theorem updateFlags_sp (r : Byte) (w : Nat) (s : State) : (updateFlags r w s).sp = s.sp := rfl
@[simp] theorem updateFlags_a (r : Byte) (w : Nat) (s : State) : (updateFlags r w s).a = s.a := rfl
@[simp] theorem updateFlags_x (r : Byte) (w : Nat) (s : State) : (updateFlags r w s).x = s.x := rfl
@[simp] theorem updateFlags_y (r : Byte) (w : Nat) (s : State) : (updateFlags r w s).y = s.y := rfl
@[simp] theorem updateFlags_flags (r : Byte) (w : Nat) (s : State) : (updateFlags r w s).flags = flagUpdate s.flags r w := rfl
@[simp] theorem updateFlags_totalCycles (r : Byte) (w : Nat) (s : State) : (updateFlags r w s).totalCycles = s.totalCycles := rfl
@[simp] theorem updateFlags_halted (r : Byte) (w : Nat) (s : State) : (updateFlags r w s).halted = s.halted := rfl
@[simp] theorem updateFlags_mem (r : Byte) (w : Nat) (s : State) : (updateFlags r w s).mem = s.mem := rfl
@[simp] theorem updateFlags_lastOutcome (r : Byte) (w : Nat) (s : State) : (updateFlags r w s).lastOutcome = s.lastOutcome := rfl

/-! ### writeA -/

@[simp] theorem writeA_pc (w : Nat) (s : State) : (writeA w s).pc = s.pc := rfl
@[simp] theorem writeA_sp (w : Nat) (s : State) : (writeA w s).sp = s.sp := rfl
@[simp] theorem writeA_a (w : Nat) (s : State) : (writeA w s).a = truncate8 w := rfl
@[simp] theorem writeA_x (w : Nat) (s : State) : (writeA w s).x = s.x := rfl
@[simp] theorem writeA_y (w : Nat) (s : State) : (writeA w s).y = s.y := rfl
@[simp] theorem writeA_flags (w : Nat) (s : State) : (writeA w s).flags = flagUpdate s.flags (truncate8 w) w := rfl
@[simp] theorem writeA_totalCycles (w : Nat) (s : State) : (writeA w s).totalCycles = s.totalCycles := rfl
@[simp] theorem writeA_halted (w : Nat) (s : State) : (writeA w s).halted = s.halted := rfl
@[simp] theorem writeA_mem (w : Nat) (s : State) : (writeA w s).mem = s.mem := rfl
@[simp] theorem writeA_lastOutcome (w : Nat) (s : State) : (writeA w s).lastOutcome = s.lastOutcome := rfl

/-! ### failFetch -/

@[simp] theorem failFetch_pc (e : FetchFailure) (s : State) : (failFetch e s).pc = s.pc := rfl
@[simp] theorem failFetch_sp (e : FetchFailure) (s : State) : (failFetch e s).sp = s.sp := rfl
@[simp] theorem failFetch_a (e : FetchFailure) (s : State) : (failFetch e s).a = s.a := rfl
@[simp] theorem failFetch_x (e : FetchFailure) (s : State) : (failFetch e s).x = s.x := rfl
@[simp] theorem failFetch_y (e : FetchFailure) (s : State) : (failFetch e s).y = s.y := rfl
@[simp] theorem failFetch_flags (e : FetchFailure) (s : State) : (failFetch e s).flags = s.flags := rfl
@[simp] theorem failFetch_totalCycles (e : FetchFailure) (s : State) : (failFetch e s).totalCycles = s.totalCycles := rfl
@[simp] theorem failFetch_halted (e : FetchFailure) (s : State) : (failFetch e s).halted = s.halted := rfl
@[simp] theorem failFetch_mem (e : FetchFailure) (s : State) : (failFetch e s).mem = s.mem := rfl
@[simp] theorem failFetch_lastOutcome (e : FetchFailure) (s : State) : (failFetch e s).lastOutcome = .fetchFailed e := rfl

/-! ### flagUpdate -/

@[simp] theorem flagUpdate_c (f : Flags) (r : Byte) (w : Nat) : (flagUpdate f r w).c = decide (0xFF < w) := rfl
@[simp] theorem flagUpdate_z (f : Flags) (r : Byte) (w : Nat) : (flagUpdate f r w).z = (r == 0) := rfl
@[simp] theorem flagUpdate_i (f : Flags) (r : Byte) (w : Nat) : (flagUpdate f r w).i = f.i := rfl
@[simp] theorem flagUpdate_d (f : Flags) (r : Byte) (w : Nat) : (flagUpdate f r w).d = f.d := rfl
@[simp] theorem flagUpdate_b (f : Flags) (r : Byte) (w : Nat) : (flagUpdate f r w).b = false := rfl
@[simp] theorem flagUpdate_v (f : Flags) (r : Byte) (w : Nat) : (flagUpdate f r w).v = f.v := rfl
@[simp] theorem flagUpdate_n (f : Flags) (r : Byte) (w : Nat) : (flagUpdate f r w).n = r.msb := rfl
@[simp] theorem flagUpdate_u (f : Flags) (r : Byte) (w : Nat) : (flagUpdate f r w).u = f.u := rfl

end Sys2Proof.Machine
end

