-- ==== Sys2Proof/Laws/Ops.lean ====
section
/-! SUPPORT. One lemma per shared operation of Machine/Ops.lean that says everything it can do. -/

namespace Sys2Proof.Machine

theorem admitted_iff {addr : Nat} {g : Bool} :
    admitted addr g = true ↔ addr < 65536 ∧ ¬ (g = true ∧ 0x0100 ≤ addr ∧ addr ≤ 0x01FF) := by
  have h1 : Config.memSize = 65536 := rfl
  have h2 : Config.stackBase = 0x0100 := rfl
  have h3 : Config.stackTop = 0x01FF := rfl
  rw [← h1, ← h2, ← h3]
  cases g
  · simp [admitted]
  · simp only [admitted, Bool.true_and, Bool.and_eq_true, decide_eq_true_eq, Bool.not_eq_true', Bool.and_eq_false_iff,
      decide_eq_false_iff_not, true_and]
    omega

theorem admitted_lt {addr : Nat} {g : Bool} (h : admitted addr g = true) : addr < Config.memSize :=
  (admitted_iff.mp h).1

theorem readByte_ok_iff {m : Memory} {addr : Nat} {g : Bool} {v : Byte} :
    readByte m addr g = .ok v ↔ admitted addr g = true ∧ m.get addr = v := by
  unfold readByte; split <;> simp_all

theorem readByte_error_iff {m : Memory} {addr : Nat} {g : Bool} {k : MemError} :
    readByte m addr g = .error k ↔ admitted addr g = false ∧ k = .outOfBounds := by
  unfold readByte
  split <;> rename_i h
  · simp [h]
  · simp [h, eq_comm (a := MemError.outOfBounds)]

theorem readBytes_ok_iff {m : Memory} {addr n : Nat} {g : Bool} {l : List Byte} :
    readBytes m addr n g = .ok l ↔
      (∀ k, k < n → admitted (addr + k) g = true) ∧ (List.range n).map (fun k => m.get (addr + k)) = l := by
  unfold readBytes
  split <;> rename_i h <;> simp only [List.all_eq_true, List.mem_range] at h
  · simp only [Except.ok.injEq]
    exact ⟨fun hl => ⟨h, hl⟩, And.right⟩
  · simp only [reduceCtorEq, false_iff]
    exact fun hl => h hl.1

theorem readBytes_error_iff {m : Memory} {addr n : Nat} {g : Bool} {k : MemError} :
    readBytes m addr n g = .error k ↔ (∃ j, j < n ∧ admitted (addr + j) g = false) ∧ k = .outOfBounds := by
  unfold readBytes
  split <;> rename_i h <;> simp only [List.all_eq_true, List.mem_range] at h
  · simp only [reduceCtorEq, false_iff, not_and]
    rintro ⟨j, hj, hf⟩
    simp [h j hj] at hf
  · simp only [Except.error.injEq, eq_comm (a := MemError.outOfBounds)]
    refine ⟨fun hk => ⟨?_, hk⟩, And.right⟩
    simpa using h

theorem writeByte_ok_iff {m m' : Memory} {addr : Nat} {v : Byte} {g : Bool} :
    writeByte m addr v g = .ok m' ↔ admitted addr g = true ∧ m.put addr v = m' := by
  unfold writeByte; split <;> simp_all

theorem writeByte_error_iff {m : Memory} {addr : Nat} {v : Byte} {g : Bool} {k : MemError} :
    writeByte m addr v g = .error k ↔ admitted addr g = false ∧ k = .outOfBounds := by
  unfold writeByte
  split <;> rename_i h
  · simp [h]
  · simp [h, eq_comm (a := MemError.outOfBounds)]

theorem writeByte_wf {m m' : Memory} {addr : Nat} {v : Byte} {g : Bool} (hw : m.wf = true)
    (h : writeByte m addr v g = .ok m') : m'.wf = true := by
  obtain ⟨ha, rfl⟩ := writeByte_ok_iff.mp h
  exact Memory.put_wf v hw (admitted_lt ha)

theorem stackAddr_lt (sp : Byte) : stackAddr sp < Config.memSize := by
  have := sp.isLt
  simp only [stackAddr, Config.stackBase, Config.memSize]; omega

theorem stackPush_ok_iff {m m' : Memory} {sp : Byte} {bytes : List Byte} :
    stackPush m sp bytes = .ok m' ↔
      0 < bytes.length ∧ bytes.length ≤ sp.toNat + 1 ∧ m.putDown (stackAddr sp) bytes = m' := by
  unfold stackPush
  split_ifs with h1 h2
  · simp [h1]
  · simp only [false_iff]; omega
  · simp only [Except.ok.injEq]
    exact ⟨fun h => ⟨by omega, by omega, h⟩, fun h => h.2.2⟩

theorem stackPush_error_iff {m : Memory} {sp : Byte} {bytes : List Byte} {k : MemError} :
    stackPush m sp bytes = .error k ↔
      (bytes.length = 0 ∧ k = .pushEmptyInput) ∨ (bytes.length > sp.toNat + 1 ∧ k = .pushOutOfSpace) := by
  unfold stackPush
  split_ifs with h1 h2
  · simp [h1, eq_comm]
  · simp [h1, h2, eq_comm]
  · simp [h1, h2]

theorem stackPush_wf {m m' : Memory} {sp : Byte} {bytes : List Byte} (hw : m.wf = true)
    (h : stackPush m sp bytes = .ok m') : m'.wf = true := by
  obtain ⟨-, -, rfl⟩ := stackPush_ok_iff.mp h
  exact Memory.putDown_wf hw (stackAddr_lt sp)

theorem stackPop_ok_iff {m : Memory} {sp : Byte} {n : Nat} {l : List Byte} :
    stackPop m sp n = .ok l ↔
      0 < n ∧ sp.toNat + n ≤ 255 ∧ (List.range n).map (fun k => m.get (stackAddr sp + 1 + k)) = l := by
  have hs : sp = Config.spEmpty ↔ sp.toNat = 255 := by simp [Config.spEmpty, ← BitVec.toNat_inj]
  have he : Config.spEmpty.toNat = 255 := rfl
  unfold stackPop
  split_ifs with h1 h2 h3
  · simp [h1]
  · have := hs.mp h2
    simp only [false_iff]; omega
  · simp only [false_iff]; omega
  · simp only [Except.ok.injEq]
    exact ⟨fun h => ⟨by omega, by omega, h⟩, fun h => h.2.2⟩

theorem stackPop_error_iff {m : Memory} {sp : Byte} {n : Nat} {k : MemError} :
    stackPop m sp n = .error k ↔
      (n = 0 ∧ k = .popZeroBytesRequested) ∨ (n ≠ 0 ∧ sp.toNat = 255 ∧ k = .popStackEmpty) ∨
      (n ≠ 0 ∧ sp.toNat ≠ 255 ∧ sp.toNat + n > 255 ∧ k = .popTooManyBytesRequested) := by
  have hs : sp = Config.spEmpty ↔ sp.toNat = 255 := by simp [Config.spEmpty, ← BitVec.toNat_inj]
  have he : Config.spEmpty.toNat = 255 := rfl
  unfold stackPop
  rw [he]
  simp only [hs]
  split_ifs with h1 h2 h3
  · simp [h1, eq_comm]
  · simp [h1, h2, eq_comm]
  · simp [h1, h2, h3, eq_comm]
  · simp [h1, h2, h3]

/-! ## The execute stage -/

theorem execute_of_ok {op : Op} {effect : State → Except MemError State} {s t : State}
    (h : effect (charge op s) = .ok t) : execute op effect s = .next (t.setLastOutcome .ok) := by
  simp [execute, h]

theorem execute_of_error {op : Op} {effect : State → Except MemError State} {s : State} {k : MemError}
    (h : effect (charge op s) = .error k) :
    execute op effect s = .next ((charge op s).setLastOutcome (.execError k)) := by
  simp [execute, h]

/-- All an execute can do: its effect succeeds on the charged state, or only the charge happens. -/
theorem execute_next {op : Op} {effect : State → Except MemError State} {s t : State}
    (h : execute op effect s = .next t) :
    (∃ u, effect (charge op s) = .ok u ∧ t = u.setLastOutcome .ok) ∨
    (∃ k, effect (charge op s) = .error k ∧ t = (charge op s).setLastOutcome (.execError k)) := by
  cases he : effect (charge op s) with
  | ok u => rw [execute_of_ok he] at h; cases h; exact .inl ⟨u, rfl, rfl⟩
  | error k => rw [execute_of_error he] at h; cases h; exact .inr ⟨k, rfl, rfl⟩

@[simp] theorem trapFrame_length (s : State) : (trapFrame s).length = 3 := rfl

theorem takeTrap_ok_iff {s t : State} :
    takeTrap s = .ok t ↔
      2 ≤ s.sp.toNat ∧
        (((s.setMem (s.mem.putDown (stackAddr s.sp) (trapFrame s))).setSp (s.sp - 3)).setFlags
          { s.flags with b := true }).setPc (s.pc + 1) = t := by
  unfold takeTrap
  cases hp : stackPush s.mem s.sp (trapFrame s) with
  | error k =>
    have := stackPush_error_iff.mp hp
    simp only [trapFrame_length] at this
    simp only [Except.map, reduceCtorEq, false_iff]
    omega
  | ok m =>
    obtain ⟨-, hl, rfl⟩ := stackPush_ok_iff.mp hp
    simp only [trapFrame_length] at hl
    simp only [Except.map, Except.ok.injEq]
    exact ⟨fun h => ⟨by omega, h⟩, And.right⟩

theorem takeTrap_error_iff {s : State} {k : MemError} :
    takeTrap s = .error k ↔ s.sp.toNat < 2 ∧ k = .pushOutOfSpace := by
  unfold takeTrap
  cases hp : stackPush s.mem s.sp (trapFrame s) with
  | error k' =>
    have h := stackPush_error_iff.mp hp
    simp only [trapFrame_length] at h
    obtain ⟨h, -⟩ | ⟨h, rfl⟩ := h
    · omega
    · simp only [Except.map, Except.error.injEq, eq_comm (a := MemError.pushOutOfSpace)]
      exact ⟨fun hk => ⟨by omega, hk⟩, And.right⟩
  | ok m =>
    obtain ⟨-, hl, rfl⟩ := stackPush_ok_iff.mp hp
    simp only [trapFrame_length] at hl
    simp only [Except.map, reduceCtorEq, false_iff]
    omega

theorem returnFromStack_ok_iff {s t : State} :
    returnFromStack s = .ok t ↔
      s.sp.toNat ≤ 253 ∧
        (s.setSp (s.sp + 2)).setPc (joinBytes (s.mem.get (stackAddr s.sp + 2)) (s.mem.get (stackAddr s.sp + 1))) = t := by
  unfold returnFromStack
  cases hp : stackPop s.mem s.sp 2 with
  | ok l =>
    obtain ⟨-, hl, rfl⟩ := stackPop_ok_iff.mp hp
    simp only [Except.map, Except.ok.injEq]
    exact ⟨fun h => ⟨by omega, h⟩, And.right⟩
  | error k =>
    have hn : ¬ s.sp.toNat ≤ 253 := fun h =>
      absurd (hp.symm.trans (stackPop_ok_iff.mpr ⟨by omega, by omega, rfl⟩)) (by simp)
    simp [Except.map, hn]

theorem returnFromStack_error_iff {s : State} {k : MemError} :
    returnFromStack s = .error k ↔
      (s.sp = 0xFF ∧ k = .popStackEmpty) ∨ (s.sp = 0xFE ∧ k = .popTooManyBytesRequested) := by
  have hs : s.sp = 0xFF ↔ s.sp.toNat = 255 := by simp [← BitVec.toNat_inj]
  have hs' : s.sp = 0xFE ↔ s.sp.toNat = 254 := by simp [← BitVec.toNat_inj]
  have hlt := s.sp.isLt
  rw [hs, hs']
  have hpop : returnFromStack s = .error k ↔ stackPop s.mem s.sp 2 = .error k := by
    unfold returnFromStack
    cases stackPop s.mem s.sp 2 <;> simp [Except.map]
  rw [hpop, stackPop_error_iff]
  constructor
  · rintro (⟨h, -⟩ | ⟨-, h, hk⟩ | ⟨-, h1, h2, hk⟩)
    · omega
    · exact .inl ⟨h, hk⟩
    · exact .inr ⟨by omega, hk⟩
  · rintro (⟨h, hk⟩ | ⟨h, hk⟩)
    · exact .inr (.inl ⟨by omega, h, hk⟩)
    · exact .inr (.inr ⟨by omega, by omega, by omega, hk⟩)

end Sys2Proof.Machine
end

