-- ==== Sys2Proof/Laws/PerInstr.lean ====
section
/-! SUPPORT. Statements about every instruction as syntax, one lemma per constructor. -/

namespace Sys2Proof.Laws.EncodedForm

/-- The bytes of an instruction begin with its operation's opcode and have its operation's length, and its decoded
record has the form 30_encoding.md R67 gives it. -/
def Statement (i : Instr) : Prop :=
  (encode i).head? = some (Params.opcode i.op) ∧ (encode i).length = Params.length i.op ∧ i.decoded.wellFormed = true

theorem brk : Statement .brk := ⟨rfl, rfl, rfl⟩
theorem aslA : Statement .aslA := ⟨rfl, rfl, rfl⟩
theorem clc : Statement .clc := ⟨rfl, rfl, rfl⟩
theorem rolA : Statement .rolA := ⟨rfl, rfl, rfl⟩
theorem rts : Statement .rts := ⟨rfl, rfl, rfl⟩
theorem adcImm (imm : Byte) : Statement (.adcImm imm) := ⟨rfl, rfl, rfl⟩
theorem adcAbs (ea : Word) : Statement (.adcAbs ea) := ⟨rfl, rfl, rfl⟩
theorem staAbs (ea : Word) : Statement (.staAbs ea) := ⟨rfl, rfl, rfl⟩
theorem ldaImm (imm : Byte) : Statement (.ldaImm imm) := ⟨rfl, rfl, rfl⟩

end Sys2Proof.Laws.EncodedForm
end

