-- ==== Sys2Proof/Laws/Step.lean ====
section
/-! SUPPORT. What the absolute operand forms, the fetch stage, an instruction and a step can do, each said once. -/

namespace Sys2Proof.Machine

theorem readAbs_ok_iff {ea : Word} {s : State} {v : Byte} :
    readAbs ea s = .ok v ↔ ¬ (0x0100 ≤ absAddr ea ∧ absAddr ea ≤ 0x01FF) ∧ s.mem.get (absAddr ea) = v := by
  have := ea.isLt
  simp only [readAbs, readByte_ok_iff, admitted_iff, Params.guard, absAddr]
  simp only [true_and]
  constructor
  · rintro ⟨⟨-, h⟩, h'⟩; exact ⟨h, h'⟩
  · rintro ⟨h, h'⟩; exact ⟨⟨by omega, h⟩, h'⟩

theorem readAbs_error_iff {ea : Word} {s : State} {k : MemError} :
    readAbs ea s = .error k ↔ (0x0100 ≤ absAddr ea ∧ absAddr ea ≤ 0x01FF) ∧ k = .outOfBounds := by
  have := ea.isLt
  simp only [readAbs, readByte_error_iff, Params.guard, absAddr, ← Bool.not_eq_true, admitted_iff]
  simp only [true_and]
  constructor
  · rintro ⟨h, h'⟩; exact ⟨by omega, h'⟩
  · rintro ⟨h, h'⟩; exact ⟨by omega, h'⟩

theorem writeAbs_ok_iff {ea : Word} {v : Byte} {s t : State} :
    writeAbs ea v s = .ok t ↔
      ¬ (0x0100 ≤ absAddr ea ∧ absAddr ea ≤ 0x01FF) ∧ s.setMem (s.mem.put (absAddr ea) v) = t := by
  have := ea.isLt
  have ha : admitted (absAddr ea) (Params.guard .dataWrite) = true ↔
      ¬ (0x0100 ≤ absAddr ea ∧ absAddr ea ≤ 0x01FF) := by
    simp only [admitted_iff, Params.guard, absAddr, true_and]; omega
  unfold writeAbs
  cases hw : writeByte s.mem (absAddr ea) v (Params.guard .dataWrite) with
  | ok m =>
    obtain ⟨h, rfl⟩ := writeByte_ok_iff.mp hw
    simp [Except.map, ha.mp h]
  | error k =>
    have hn := ha.not.mp (by simpa using (writeByte_error_iff.mp hw).1)
    simp only [Except.map, reduceCtorEq, false_iff]
    exact fun h => hn h.1

theorem writeAbs_error_iff {ea : Word} {v : Byte} {s : State} {k : MemError} :
    writeAbs ea v s = .error k ↔ (0x0100 ≤ absAddr ea ∧ absAddr ea ≤ 0x01FF) ∧ k = .outOfBounds := by
  have := ea.isLt
  have ha : admitted (absAddr ea) (Params.guard .dataWrite) = false ↔
      (0x0100 ≤ absAddr ea ∧ absAddr ea ≤ 0x01FF) := by
    simp only [← Bool.not_eq_true, admitted_iff, Params.guard, absAddr, true_and]; omega
  unfold writeAbs
  cases hw : writeByte s.mem (absAddr ea) v (Params.guard .dataWrite) with
  | ok m =>
    have hn := ha.not.mp (by simpa using (writeByte_ok_iff.mp hw).1)
    simp only [Except.map, reduceCtorEq, false_iff]
    exact fun h => hn h.1
  | error k' =>
    obtain ⟨h, rfl⟩ := writeByte_error_iff.mp hw
    simp only [Except.map, Except.error.injEq, eq_comm (a := MemError.outOfBounds)]
    exact ⟨fun hk => ⟨ha.mp h, hk⟩, And.right⟩

/-- The effect of each instruction, run by `execute` on the charged state: `exec` is one `execute` for every
instruction. -/
def effectOf : Instr → State → Except MemError State
  | .brk, s => takeTrap s
  | .aslA, s => effectAslA s
  | .clc, s => effectClc s
  | .rolA, s => effectRolA s
  | .rts, s => returnFromStack s
  | .adcImm imm, s => effectAdcImm imm s
  | .adcAbs ea, s => effectAdcAbs ea s
  | .staAbs ea, s => effectStaAbs ea s
  | .ldaImm imm, s => effectLdaImm imm s

theorem exec_eq_execute (i : Instr) (s : State) : exec i s = execute i.op (effectOf i) s := by cases i <;> rfl

/-- All an instruction can do. -/
theorem exec_next {i : Instr} {s t : State} (h : exec i s = .next t) :
    (∃ u, effectOf i (charge i.op s) = .ok u ∧ t = u.setLastOutcome .ok) ∨
    (∃ k, effectOf i (charge i.op s) = .error k ∧ t = (charge i.op s).setLastOutcome (.execError k)) :=
  execute_next (exec_eq_execute i s ▸ h)

/-- A fetch answers an instruction exactly when its bytes can be read with the fetch guard. -/
theorem fetch_ok {m : Memory} {pc : Word} {i : Instr} (h : fetch m pc = .ok i) :
    admitted pc.toNat true = true ∧ lookupOp (m.get pc.toNat) = some i.op ∧
      ∃ operands, readBytes m (pc.toNat + 1) (Params.operandCount i.op) true = .ok operands ∧ i = assemble i.op operands := by
  unfold fetch at h
  simp only [Params.guard] at h
  cases hr : readByte m pc.toNat true with
  | error k => simp [hr] at h
  | ok b =>
    obtain ⟨ha, rfl⟩ := readByte_ok_iff.mp hr
    simp only [hr] at h
    cases hl : lookupOp (m.get pc.toNat) with
    | none => simp [hl] at h
    | some op =>
      simp only [hl] at h
      cases ho : readBytes m (pc.toNat + 1) (Params.operandCount op) true with
      | error k => simp [ho] at h
      | ok operands =>
        simp only [ho, Except.ok.injEq] at h
        subst h
        exact ⟨ha, by simp, operands, by simpa using ho, by simp⟩

/-- All a step can do. -/
theorem step_next {s t : State} (h : step s = .next t) :
    (∃ e, fetch s.mem s.pc = .error e ∧ t = failFetch e s) ∨ (∃ i, fetch s.mem s.pc = .ok i ∧ exec i s = .next t) := by
  unfold step at h
  cases hf : fetch s.mem s.pc with
  | error e => simp only [hf] at h; cases h; exact .inl ⟨e, rfl, rfl⟩
  | ok i => simp only [hf] at h; exact .inr ⟨i, rfl, h⟩

theorem step_of_fetch {s : State} {i : Instr} (h : fetch s.mem s.pc = .ok i) : step s = exec i s := by
  simp [step, h]

end Sys2Proof.Machine
end

