-- ==== Sys2Proof/Laws/Transactions.lean ====
section
/-! SUPPORT. What the host's transactions, its loops and a break-stop can do, each said once. -/

namespace Sys2Proof.Machine

/-- The step transaction reports the recorded outcome of the step. -/
theorem transact_step {s t : State} (h : StepsTo s t) : transact .step s = (.stepped t.lastOutcome, t) := by
  have h : step s = .next t := h
  simp [transact, h]

@[simp] theorem transactAll_nil (s : State) : transactAll [] s = s := rfl
@[simp] theorem transactAll_cons (t : Transaction) (rest : List Transaction) (s : State) :
    transactAll (t :: rest) s = transactAll rest (transact t s).2 := rfl

theorem transactAll_append (before rest : List Transaction) (s : State) :
    transactAll (before ++ rest) s = transactAll rest (transactAll before s) := by
  induction before generalizing s with
  | nil => rfl
  | cons t before ih => simp [ih]

@[simp] theorem hostLoop_nil (stop : State → Bool) (s : State) : hostLoop stop [] s = s := rfl

theorem hostLoop_of_halted {s : State} (stop : State → Bool) (host : List (List Transaction)) (h : s.halted = true) :
    hostLoop stop host s = s := by
  cases host <;> simp [hostLoop, h]

/-- One iteration of a loop that does not end with it. -/
theorem hostLoop_round {s : State} {stop : State → Bool} (between : List Transaction) (rest : List (List Transaction))
    (h : s.halted = false) (on : stop (transact .step s).2 = false) :
    hostLoop stop (between :: rest) s = hostLoop stop rest (transactAll between (transact .step s).2) := by
  simp [hostLoop, h, on]

/-- The loop ends right after a step that meets `stop`. -/
theorem hostLoop_stop {s : State} {stop : State → Bool} (between : List Transaction) (rest : List (List Transaction))
    (h : s.halted = false) (last : stop (transact .step s).2 = true) :
    hostLoop stop (between :: rest) s = (transact .step s).2 := by
  simp [hostLoop, h, last]

@[simp] theorem afterRounds_nil (s : State) : afterRounds [] s = s := rfl
@[simp] theorem afterRounds_cons (between : List Transaction) (rest : List (List Transaction)) (s : State) :
    afterRounds (between :: rest) s = afterRounds rest (transactAll between (transact .step s).2) := rfl

/-- A run without transactions has no break-stop. -/
theorem not_breakStop_nil (s t : State) : ¬ BreakStop [] s t := nofun

/-- All a run that begins with a step can do. -/
theorem breakStop_step {s t u : State} {rest : List Transaction} (h : StepsTo s t) :
    BreakStop (.step :: rest) s u ↔
      (t.noFault ∧ t.flags.b = true ∧ u = t) ∨ (¬ (t.noFault ∧ t.flags.b = true) ∧ BreakStop rest t u) := by
  have same {t' : State} (h' : StepsTo s t') : t' = t := by
    have := h'.symm.trans h; simpa using this
  constructor
  · intro hb
    cases hb with
    | here first => obtain rfl := same first.stepped; exact .inl ⟨first.ok, first.broke, rfl⟩
    | later first notYet inRest => obtain rfl := same first; exact .inr ⟨notYet, inRest⟩
    | between noStep => exact absurd rfl noStep
  · rintro (⟨ok, broke, rfl⟩ | ⟨notYet, inRest⟩)
    · exact .here ⟨h, ok, broke⟩
    · exact .later h notYet inRest

/-- A transaction that is no step is no break-stop. -/
theorem breakStop_between {s u : State} {x : Transaction} {rest : List Transaction} (h : x ≠ .step) :
    BreakStop (x :: rest) s u ↔ BreakStop rest (transact x s).2 u := by
  constructor
  · intro hb
    cases hb with
    | here => exact absurd rfl h
    | later => exact absurd rfl h
    | between _ inRest => exact inRest
  · exact .between h

end Sys2Proof.Machine
end

