-- ==== Sys2Proof/Tests/Slice0.lean ====
section
/-! SUPPORT. Tests. Expected results: spec/95_test_vectors.md (row named beside each test), the encodings of
30_encoding.md, and hand calculation from the cited rules. The witnesses show states that meet the hypotheses of the
statements in Certificates/Slice0/Obligations.lean. -/

namespace Sys2Proof.Machine.Tests

/-! ## Well-formedness: one ill-formed record for each check -/

theorem test_wf_accepts : (Decoded.mk .staAbs [0x00, 0x20] 4).wellFormed = true := by decide
theorem test_wf_refuses_operand_count : (Decoded.mk .staAbs [0x00] 4).operandsOk = false := by decide
theorem test_wf_refuses_missing_operand : (Decoded.mk .ldaImm [] 2).wellFormed = false := by decide
theorem test_wf_refuses_cost : (Decoded.mk .ldaImm [0x05] 3).costOk = false := by decide

/-! ## Encodings, written out from 30_encoding.md R61 to R66 -/

theorem test_word_brk : decodeTableWord 8 0b00000000 = some .brk := by decide
theorem test_word_aslA : decodeTableWord 8 0b00001010 = some .aslA := by decide
theorem test_word_clc : decodeTableWord 8 0b00011000 = some .clc := by decide
theorem test_word_rolA : decodeTableWord 8 0b00101010 = some .rolA := by decide
theorem test_word_rts : decodeTableWord 8 0b01100000 = some .rts := by decide
theorem test_word_adcImm : decodeTableWord 16 0b1000000001101001 = some (.adcImm 0x80) := by decide
theorem test_word_adcAbs : decodeTableWord 24 0b000100100011010001101101 = some (.adcAbs 0x1234) := by decide
theorem test_word_staAbs : decodeTableWord 24 0b001000000000000010001101 = some (.staAbs 0x2000) := by decide
theorem test_word_ldaImm : decodeTableWord 16 0b0000010110101001 = some (.ldaImm 0x05) := by decide
/-- nbits shorter than the instruction: the operand bytes are zeros. -/
theorem test_word_short : decodeTableWord 8 0xFF8D = some (.staAbs 0x0000) := by decide
/-- R68: bytes that a full 6502 has and this hardware has not. -/
theorem test_word_unknown : decodeTableWord 8 0xEA = none ∧ decodeTableWord 24 0x4C = none := by decide
theorem test_encode_sta : encode (.staAbs 0x2000) = [0x8D, 0x00, 0x20] := by decide

/-! ## States to step from -/

/-- The reset state with bytes at an address. -/
def resetWith (addr : Nat) (bytes : List Byte) : State := { State.reset with mem := Memory.putUp [] addr bytes }

/-- The state after one step transaction. -/
def after (s : State) : State := (transact .step s).2

/-- Reset flags with a given carry. -/
def withC (c : Bool) (s : State) : State := { s with flags := { s.flags with c := c } }

/-! ## One step of each instruction -/

/-- S9a. -/
theorem test_lda_end_to_end :
    after (resetWith 0 [0xA9, 0x05]) =
      { resetWith 0 [0xA9, 0x05] with
        a := 0x05, pc := 0x0002, totalCycles := 2, flags := { Flags.reset with z := false } } := by decide

/-- F8: at 0xFFFE the instruction is fetched and PC wraps. -/
theorem test_lda_wraps : (after { resetWith 0xFFFE [0xA9, 0x12] with pc := 0xFFFE }).pc = 0x0000 := by decide

/-- LS4. -/
theorem test_sta_stores :
    let t := after { withC true (resetWith 0 [0x8D, 0x00, 0x20]) with a := 0x42 }
    t.mem.get 0x2000 = 0x42 ∧ t.pc = 0x0003 ∧ t.flags.c = false ∧ t.flags.z = false ∧ t.totalCycles = 4 := by decide

/-- F11. -/
theorem test_sta_stack_page :
    let t := after { withC true (resetWith 0 [0x8D, 0x50, 0x01]) with a := 0x42 }
    t.lastOutcome = .execError .outOfBounds ∧ t.pc = 0x0000 ∧ t.flags.c = true ∧ t.totalCycles = 4 ∧
      (after t).totalCycles = 8 := by decide

/-- SH1. -/
theorem test_asl_carry_out :
    let t := after { resetWith 0 [0x0A] with a := 0x80 }
    t.a = 0x00 ∧ t.flags.c = true ∧ t.flags.n = false ∧ t.flags.z = true := by decide

/-- SH2: the old carry does not enter. -/
theorem test_asl_ignores_carry :
    let t := after (withC true { resetWith 0 [0x0A] with a := 0x40 })
    t.a = 0x80 ∧ t.flags.c = false ∧ t.flags.n = true ∧ t.flags.z = false := by decide

/-- RO2. -/
theorem test_rol_carry_through :
    let t := after (withC true { resetWith 0 [0x2A] with a := 0x80 })
    t.a = 0x01 ∧ t.flags.c = true ∧ t.flags.n = false ∧ t.flags.z = false := by decide

/-- RO1. -/
theorem test_rol_zero :
    let t := after { resetWith 0 [0x2A] with a := 0x80 }
    t.a = 0x00 ∧ t.flags.c = true ∧ t.flags.z = true := by decide

/-- AD2: the largest sum. -/
theorem test_adc_imm_largest :
    let t := after (withC true { resetWith 0 [0x69, 0xFF] with a := 0xFF })
    t.a = 0xFF ∧ t.flags.c = true ∧ t.flags.n = true ∧ t.flags.z = false ∧ t.pc = 0x0002 := by decide

/-- AD3: a signed overflow leaves V at 0; under `ADC_SETS_V = true` it would be 1. -/
theorem test_adc_imm_overflow :
    let s := { resetWith 0 [0x69, 0x01] with a := 0x7F }
    (after s).a = 0x80 ∧ (after s).flags.v = false ∧ (addWithCarryAs true 0x01 s).flags.v = true := by decide

/-- AA1. -/
theorem test_adc_abs :
    let t := after (withC true { State.reset with a := 0x10, mem := Memory.putUp (Memory.put [] 0x00FF 0x20) 0 [0x6D, 0xFF, 0x00] })
    t.a = 0x31 ∧ t.flags.c = false ∧ t.pc = 0x0003 ∧ t.totalCycles = 4 := by decide

/-- AA4: it reads its own opcode byte. -/
theorem test_adc_abs_self : (after { resetWith 0 [0x6D, 0x00, 0x00] with a := 0x01 }).a = 0x6E := by decide

/-- FL1: B, N, Z kept. -/
theorem test_clc_only_carry :
    let f : Flags := { Flags.reset with c := true, b := true, n := true, z := false }
    (after { resetWith 0 [0x18] with flags := f }).flags = { f with c := false } := by decide

/-- F7. -/
theorem test_clc_wraps : (after { resetWith 0xFFFF [0x18] with pc := 0xFFFF }).pc = 0x0000 := by decide

/-- BR3. -/
theorem test_brk_frame :
    let t := after { resetWith 0x1000 [0x00] with pc := 0x0200, flags := { Flags.reset with n := true, c := true, z := false } }
    t.mem = [(0x01FD, 0xB5), (0x01FE, 0x02), (0x01FF, 0x02)] ∧ t.pc = 0x0201 ∧ t.sp = 0xFC ∧ t.flags.b = true := by decide

/-- BR6, BR7. -/
theorem test_brk_stack_edge :
    (after { State.reset with sp := 0x02 }).sp = 0xFF ∧
    after { State.reset with sp := 0x01 } =
      { State.reset with sp := 0x01, totalCycles := 7, lastOutcome := .execError .pushOutOfSpace } := by decide

/-- RT3. -/
theorem test_rts_target :
    let t := after { State.reset with sp := 0xFD, pc := 0x0300, mem := [(0x01FE, 0x34), (0x01FF, 0x12), (0x0300, 0x60)] }
    t.pc = 0x1234 ∧ t.sp = 0xFF ∧ t.totalCycles = 6 ∧ t.lastOutcome = .ok := by decide

/-- RT1, RT2. -/
theorem test_rts_fails :
    (after (resetWith 0 [0x60])).lastOutcome = .execError .popStackEmpty ∧
    (after { resetWith 0 [0x60] with sp := 0xFE }).lastOutcome = .execError .popTooManyBytesRequested := by decide

/-! ## Fetch and host -/

/-- F1, F5, F10. -/
theorem test_fetch_failures :
    (after { resetWith 0x00FF [0xA9] with pc := 0x00FF }).lastOutcome = .fetchFailed (.fetchError .outOfBounds) ∧
    (after { resetWith 0xFFFF [0xA9] with pc := 0xFFFF }).lastOutcome = .fetchFailed (.fetchError .outOfBounds) ∧
    (after { resetWith 0x00FF [0xEA] with pc := 0x00FF }).lastOutcome = .fetchFailed (.unknownOpcode 0xEA) := by decide

/-- L1, L2, L4. -/
theorem test_load_program_edges :
    (loadProgram [] 0xFFFE [0x01] true).toOption = some [(0xFFFE, 0x01)] ∧
    (transact (.loadProgram 0xFFFF [0x01] true) State.reset).1 = .failed .programTooLarge ∧
    (transact (.loadProgram 0x00FF [0x01] true) State.reset).1 = .failed .outOfBounds := by decide

/-- R147: the host sets `halted` after the first of three steps, so the loop takes one. -/
theorem test_run_loop_halts_inside :
    (runLoop [[.setHalt], [], []] (resetWith 0 [0x18, 0x18, 0x18])).pc = 0x0001 ∧
    (runLoop (unattended 3) (resetWith 0 [0x18, 0x18, 0x18])).pc = 0x0003 := by decide

/-- R148: continue mode steps before it looks at B, so it passes the LDA that clears B and stops after the BRK. -/
theorem test_continue_mode_steps_first :
    (continueMode (unattended 5) { resetWith 0 [0xA9, 0x05] with flags := { Flags.reset with b := true } }).pc = 0x0003 := by decide

/-- K2, K3, K5 to K8. -/
theorem test_stack_primitives :
    (stackPop [(0x01FD, 0x03), (0x01FE, 0x02), (0x01FF, 0x01)] 0xFC 3).toOption = some [0x03, 0x02, 0x01] ∧
    (stackPush [] 0x02 [0x07, 0x08, 0x09]).toOption = some [(0x0100, 0x09), (0x0101, 0x08), (0x0102, 0x07)] ∧
    (stackPush [] 0x00 [0x05, 0x06]).toOption = none ∧ (stackPop [] 0xFF 1).toOption = none := by decide

/-- The host's use of the fixed names: every row's word runs as the first instruction after reset. -/
theorem test_fetch_word_runs :
    (after (State.reset.withFetchWord 24 0x20008D)).pc = 0x0003 ∧ (after (State.reset.withFetchWord 8 0x60)).totalCycles = 6 := by
  decide

/-! ## Witnesses: states and operands that meet the hypotheses of the statements, a boundary value for each clause -/

/-- A canonical memory. -/
def someMem : Memory := [(0x0000, 0x8D), (0x01FF, 0x12), (0xFFFF, 0x01)]

theorem witness_WriteThenReadReturnsValue : someMem.wf = true ∧ 65535 ≤ 65535 ∧ (0x0100 ≤ 0x01FF ∧ 0x01FF ≤ 0x01FF) := by decide
theorem witness_ByteReadAnswersCellOrOutOfBounds :
    (0xFFFF ≤ 0xFFFF ∧ ¬ (true = true ∧ 0x0100 ≤ 0xFFFF ∧ 0xFFFF ≤ 0x01FF)) ∧
    ¬ (0x10000 ≤ 0xFFFF ∧ ¬ (true = true ∧ 0x0100 ≤ 0x10000 ∧ 0x10000 ≤ 0x01FF)) ∧
    ¬ (0x0100 ≤ 0xFFFF ∧ ¬ (true = true ∧ 0x0100 ≤ 0x0100 ∧ 0x0100 ≤ 0x01FF)) := by decide
theorem witness_ByteWriteChangesOneCell :
    someMem.wf = true ∧ (0x0100 ≤ 0xFFFF ∧ ¬ (false = true ∧ 0x0100 ≤ 0x0100 ∧ 0x0100 ≤ 0x01FF)) ∧
    ¬ (0x01FF ≤ 0xFFFF ∧ ¬ (true = true ∧ 0x0100 ≤ 0x01FF ∧ 0x01FF ≤ 0x01FF)) := by decide
theorem witness_PushWritesDescending :
    someMem.wf = true ∧ [0x01, 0x02].length > (0x00 : Byte).toNat + 1 ∧
    ([0x01, 0x02, 0x03] : List Byte) ≠ [] ∧ [0x01, 0x02, 0x03].length ≤ (0x02 : Byte).toNat + 1 := by decide
theorem witness_PopReadsAscending :
    (2 ≠ 0 ∧ (0xFE : Byte) ≠ 0xFF ∧ (0xFE : Byte).toNat + 2 > 0xFF) ∧ (1 ≠ 0 ∧ (0xFE : Byte).toNat + 1 ≤ 0xFF) := by decide
theorem witness_PushThenPopReturnsReversed :
    someMem.wf = true ∧ ([0x01, 0x02] : List Byte) ≠ [] ∧ [0x01, 0x02].length ≤ (0x02 : Byte).toNat ∧
    [0x01, 0x02].length = (0x01 : Byte).toNat + 1 := by decide
theorem witness_FlagUpdateWritesBNZC : ¬ InStackPage (absAddr 0x00FF) ∧ ¬ InStackPage (absAddr 0x0200) := by decide
theorem witness_StaAbsResult : ({ State.reset with mem := someMem }).mem.wf = true ∧ ¬ InStackPage (absAddr 0x0200) ∧
    ¬ InStackPage (absAddr 0x00FF) := by decide
theorem witness_StaAbsStackPageFails : InStackPage (absAddr 0x0100) ∧ InStackPage (absAddr 0x01FF) := by decide
theorem witness_AdcAbsResult : ¬ InStackPage (absAddr 0xFFFF) ∧ ({ State.reset with mem := someMem }).mem.get (absAddr 0xFFFF) = 0x01 := by
  decide
theorem witness_AdcAbsStackPageFails : InStackPage (absAddr 0x01FF) := by decide
theorem witness_BrkTakesTrap : ({ State.reset with sp := 0x02 }).mem.wf = true ∧ 2 ≤ ({ State.reset with sp := 0x02 }).sp.toNat := by
  decide
theorem witness_BrkWithoutSpaceFails : ({ State.reset with sp := 0x01 }).sp.toNat < 2 := by decide
theorem witness_RtsResult :
    let s := { State.reset with sp := 0xFD, mem := [(0x01FE, 0x34), (0x01FF, 0x12)] }
    s.sp.toNat ≤ 0xFD ∧ s.mem.get (stackAddr s.sp + 1) = 0x34 ∧ s.mem.get (stackAddr s.sp + 2) = 0x12 := by decide
theorem witness_RtsPopFails : State.reset.sp = 0xFF ∧ ({ State.reset with sp := 0xFE }).sp = 0xFE := by decide
theorem witness_RtsAfterBrkPopsStatus : State.reset.mem.wf = true ∧ 3 ≤ ({ State.reset with sp := 0x03 }).sp.toNat ∧
    ({ State.reset with sp := 0x02 }).sp = 2 := by decide
theorem witness_BrkNestsEightyFiveDeep : State.reset.sp = 0xFF ∧ 1 ≤ 85 := by decide
theorem witness_NonStoringFrame : (Instr.rts).op ∈ [Op.ldaImm, .aslA, .rolA, .adcImm, .adcAbs, .clc, .rts] ∧
    (∃ t, exec .rts { State.reset with sp := 0xFD } = .next t) ∧ ∃ t, exec .clc State.reset = .next t :=
  ⟨by decide, ⟨_, rfl⟩, _, rfl⟩
theorem witness_StoringFrame : (∃ t, exec (.staAbs 0x2000) State.reset = .next t) ∧ ∃ t, exec .brk State.reset = .next t :=
  ⟨⟨_, rfl⟩, _, rfl⟩
theorem witness_StepRunsDecodedInstruction :
    (readBytes (resetWith 0 [0x8D, 0x00, 0x20]).mem 0 (encode (.staAbs 0x2000)).length true).toOption =
      some (encode (.staAbs 0x2000)) := by decide
theorem witness_FetchFailsExactlyWhere :
    InStackPage 0x0100 ∧ ¬ InStackPage 0x00FF ∧ lookupOp 0xEA = none ∧ lookupOp 0xA9 = some .ldaImm ∧
    lookupOp 0x8D = some .staAbs := by decide
theorem witness_FetchFailureChangesNothing : fetch (resetWith 0 [0xFF]).mem 0 = .error (.unknownOpcode 0xFF) ∧
    fetch State.reset.mem 0x0100 = .error (.fetchError .outOfBounds) := ⟨rfl, rfl⟩
/-- A step with a recorded fault, and one without. -/
theorem witness_FailingStepLeavesCoreStuck : ∃ t, StepsTo { State.reset with pc := 0x0100 } t ∧ ¬ t.noFault :=
  ⟨_, rfl, by intro h; cases h⟩
theorem witness_ProgramCounterUpdate : ∃ t, StepsTo State.reset t ∧ t.noFault ∧ fetch State.reset.mem State.reset.pc = .ok .brk :=
  ⟨_, rfl, rfl, rfl⟩
theorem witness_ExecuteErrorsExactlyWhere : ∃ t, exec .rts State.reset = .next t ∧ t.lastOutcome = .execError .popStackEmpty :=
  ⟨_, rfl, rfl⟩
theorem witness_CyclesChargedOncePerExecute : (∃ t, StepsTo { State.reset with pc := 0x01FF } t) ∧
    fetch State.reset.mem 0x01FF = .error (.fetchError .outOfBounds) := ⟨⟨_, rfl⟩, rfl⟩
theorem witness_OnlyStaAndBrkWriteMemory : ∃ t, StepsTo State.reset t ∧ t.mem.get 0x01FE ≠ State.reset.mem.get 0x01FE :=
  ⟨_, rfl, by decide⟩
theorem witness_BreakFlagAfterStep : ∃ t, StepsTo (resetWith 0 [0x18]) t ∧ t.noFault ∧ fetch (resetWith 0 [0x18]).mem 0 = .ok .clc :=
  ⟨_, rfl, rfl, rfl⟩
theorem witness_UnusedFlagReadsOne : (∃ t, StepsTo State.reset t) ∧ State.reset.flags.u = true := ⟨⟨_, rfl⟩, rfl⟩
theorem witness_StepKeepsUnwiredState : ∃ t, StepsTo (resetWith 0 [0xA9, 0x80]) t := ⟨_, rfl⟩
theorem witness_StepIgnoresCyclesHaltedOutcome : ∃ t, StepsTo { State.reset with halted := true } t := ⟨_, rfl⟩
/-- A an unknown opcode, an operation whose operands are read, and one whose operand read fails. -/
theorem witness_StoreSeenByNextFetch :
    (State.reset.mem.wf = true ∧ ¬ InStackPage (absAddr 0x00FF) ∧ (0x00FF : Word).toNat = absAddr 0x00FF) ∧
    lookupOp 0xFF = none ∧ lookupOp 0xA9 = some .ldaImm ∧
    (readBytes State.reset.mem (0x0200 + 1) (Params.operandCount .ldaImm) true).toOption = some [0x00] ∧
    (readBytes State.reset.mem (0x00FF + 1) (Params.operandCount .ldaImm) true).toOption = none := by decide
theorem witness_EncodeOfDecode : decode [0xA9, 0x05, 0x00] = .ok (.ldaImm 0x05, [0x00]) := rfl
theorem witness_OtherOpcodesUnknown : (0xFF : Byte) ∉ ([0x00, 0x0A, 0x18, 0x2A, 0x60, 0x69, 0x6D, 0x8D, 0xA9] : List Byte) := by
  decide
theorem witness_PlacedWordRunsNext : State.reset.mem.wf = true ∧ decodeTableWord 16 0x05A9 = some (.ldaImm 0x05) ∧
    (0x00FD + 2 < 0x0100 ∨ (0x01FF < 0x00FD ∧ 0x00FD + 2 ≤ 0xFFFF)) ∧
    (0xFFFD + 2 < 0x0100 ∨ (0x01FF < 0xFFFD ∧ 0xFFFD + 2 ≤ 0xFFFF)) := by decide
theorem witness_HaltFlagTransactions :
    Transaction.step ≠ .reset ∧ ({ State.reset with halted := true }).halted = true ∧ State.reset.halted = false ∧
    Transaction.setHalt ∈ [Transaction.getStatus, .setHalt] ∧ Transaction.reset ∉ [Transaction.getStatus, .setHalt] := by decide
theorem witness_GettersReadOnly : Transaction.setHalt ≠ .reset ∧ Transaction.setHalt ≠ .step := by decide
theorem witness_DumpReadsAnyRange : 0xFFFF + 1 ≤ 65536 ∧ 0 < 2 ∧ 65536 < 0xFFFF + 2 := by decide
theorem witness_LoadProgramWritesBytesAndSentinel :
    someMem.wf = true ∧ (0xFFFF : Word).toNat + ([] : List Byte).length + 1 ≤ 65536 ∧
    (true = true → (0x00FF : Word).toNat > 0x01FF ∨ (0x00FF : Word).toNat + ([] : List Byte).length < 0x0100) := by decide
theorem witness_LoadProgramFailures :
    (0xFFFF : Word).toNat + [0x01].length + 1 > 65536 ∧
    ((0x01FF : Word).toNat + [0x01].length + 1 ≤ 65536 ∧ (0x01FF : Word).toNat ≤ 0x01FF ∧ 0x0100 ≤ (0x00FF : Word).toNat + [0x01].length) := by
  decide
/-- A run of one step that is its break-stop. -/
theorem witness_HostLoopsStop : State.reset.halted = false ∧ State.reset.flags.b = false ∧
    ∃ t, BreakStop (List.replicate 1 .step) State.reset t := ⟨rfl, rfl, _, .here ⟨rfl, rfl, rfl⟩⟩
/-- A boundary where the host has set `halted`, and a step that leaves B set. -/
theorem witness_LoopsStopAtFirstBoundaryOrBreak :
    (afterRounds [[.setHalt]] State.reset).halted = true ∧ (afterSteps 1 State.reset).flags.b = true := by decide
theorem witness_StepKeepsInvariant : Inv (resetWith 0 [0x8D, 0x00, 0x20]) ∧ ∃ t, step (resetWith 0 [0x8D, 0x00, 0x20]) = .next t :=
  ⟨⟨rfl, rfl, rfl, rfl, rfl, rfl, rfl⟩, _, rfl⟩
theorem witness_ReachableStatesMeetInvariant : Reachable (transact (.loadProgram 0 [0xA9, 0x05] true) State.reset).2 :=
  .transaction .reset _

end Sys2Proof.Machine.Tests
end

section
/-! What ADC abs and STA abs do when they succeed, and the part of the state that no step writes. -/

namespace Sys2Proof.Machine

theorem effectAdcAbs_ok_iff {ea : Word} {s t : State} :
    effectAdcAbs ea s = .ok t ↔
      ¬ (0x0100 ≤ absAddr ea ∧ absAddr ea ≤ 0x01FF) ∧
        advance .adcAbs (addWithCarry (s.mem.get (absAddr ea)) s) = t := by
  unfold effectAdcAbs
  cases hr : readAbs ea s with
  | ok m =>
    obtain ⟨hp, rfl⟩ := readAbs_ok_iff.mp hr
    simp [Except.map, hp]
  | error k =>
    obtain ⟨hp, -⟩ := readAbs_error_iff.mp hr
    simp [Except.map, hp]

theorem effectStaAbs_ok_iff {ea : Word} {s t : State} :
    effectStaAbs ea s = .ok t ↔
      ¬ (0x0100 ≤ absAddr ea ∧ absAddr ea ≤ 0x01FF) ∧
        advance .staAbs (updateFlags s.a s.a.toNat (s.setMem (s.mem.put (absAddr ea) s.a))) = t := by
  unfold effectStaAbs
  cases hw : writeAbs ea s.a s with
  | ok u =>
    obtain ⟨hp, rfl⟩ := writeAbs_ok_iff.mp hw
    simp [Except.map, hp]
  | error k =>
    obtain ⟨hp, -⟩ := writeAbs_error_iff.mp hw
    simp [Except.map, hp]

/-- What 10_state.md lists and no execute writes: X, Y, the flags V, D, I, U, and `halted`. -/
structure Unwired where
  x : Byte
  y : Byte
  v : Bool
  d : Bool
  i : Bool
  u : Bool
  halted : Bool

/-- The unwired part of a state. -/
def State.unwired (s : State) : Unwired :=
  { x := s.x, y := s.y, v := s.flags.v, d := s.flags.d, i := s.flags.i, u := s.flags.u, halted := s.halted }

@[simp] theorem unwired_charge (op : Op) (s : State) : (charge op s).unwired = s.unwired := rfl
@[simp] theorem unwired_advance (op : Op) (s : State) : (advance op s).unwired = s.unwired := rfl
@[simp] theorem unwired_setLastOutcome (s : State) (o : StepOutcome) : (s.setLastOutcome o).unwired = s.unwired := rfl
@[simp] theorem unwired_setMem (s : State) (m : Memory) : (s.setMem m).unwired = s.unwired := rfl
@[simp] theorem unwired_updateFlags (r : Byte) (w : Nat) (s : State) : (updateFlags r w s).unwired = s.unwired := rfl
@[simp] theorem unwired_writeA (w : Nat) (s : State) : (writeA w s).unwired = s.unwired := rfl
@[simp] theorem unwired_failFetch (e : FetchFailure) (s : State) : (failFetch e s).unwired = s.unwired := rfl

/-- V is kept because `ADC_SETS_V` is false (decision D11). -/
@[simp] theorem unwired_addWithCarry (m : Byte) (s : State) : (addWithCarry m s).unwired = s.unwired := rfl

theorem effectOf_unwired {i : Instr} {s t : State} (h : effectOf i s = .ok t) : t.unwired = s.unwired := by
  cases i with
  | brk => obtain ⟨-, rfl⟩ := takeTrap_ok_iff.mp h; rfl
  | aslA => cases h; simp
  | clc => cases h; rfl
  | rolA => cases h; simp
  | rts => obtain ⟨-, rfl⟩ := returnFromStack_ok_iff.mp h; rfl
  | adcImm imm => cases h; simp
  | adcAbs ea => obtain ⟨-, rfl⟩ := effectAdcAbs_ok_iff.mp h; simp
  | staAbs ea => obtain ⟨-, rfl⟩ := effectStaAbs_ok_iff.mp h; simp
  | ldaImm imm => cases h; simp

theorem exec_unwired {i : Instr} {s t : State} (h : exec i s = .next t) : t.unwired = s.unwired := by
  obtain ⟨u, he, rfl⟩ | ⟨k, -, rfl⟩ := exec_next h
  · simpa using effectOf_unwired he
  · simp

theorem step_unwired {s t : State} (h : StepsTo s t) : t.unwired = s.unwired := by
  obtain ⟨e, -, rfl⟩ | ⟨i, -, hx⟩ := step_next h
  · simp
  · exact exec_unwired hx

/-- All a transaction can do to the state. -/
theorem transact_state (t : Transaction) (s : State) :
    (t = .reset ∧ (transact t s).2 = State.reset) ∨
    (∃ start bytes guard m, t = .loadProgram start bytes guard ∧ loadProgram s.mem start bytes guard = .ok m ∧
      (transact t s).2 = s.setMem m) ∨
    (t = .step ∧ StepsTo s (transact t s).2) ∨
    (t = .setHalt ∧ (transact t s).2 = s.setHalted true) ∨
    (transact t s).2 = s := by
  cases t with
  | reset => exact .inl ⟨rfl, rfl⟩
  | loadProgram start bytes guard =>
    cases hl : loadProgram s.mem start bytes guard with
    | ok m => exact .inr (.inl ⟨start, bytes, guard, m, rfl, hl, by simp [transact, hl]⟩)
    | error k => simp [transact, hl]
  | step =>
    cases hs : step s with
    | next u => simp [transact_step hs, show StepsTo s u from hs]
    | fault r => cases r
    | refused r => simp [transact, hs]
  | setHalt => simp [transact]
  | readBytes addr count => cases hd : dumpBytes s addr count <;> simp [transact, hd]
  | checkHalt | getRegister r | getFlag f | getTotalCycles | getStatus => simp [transact]

theorem step_keeps_u {s t : State} (h : StepsTo s t) : t.flags.u = s.flags.u :=
  congrArg Unwired.u (step_unwired h)

theorem transact_keeps_u_set (t : Transaction) {s : State} (h : s.flags.u = true) :
    (transact t s).2.flags.u = true := by
  obtain ⟨-, he⟩ | ⟨_, _, _, m, -, -, he⟩ | ⟨-, hs⟩ | ⟨-, he⟩ | he := transact_state t s
  · rw [he]; rfl
  · rw [he]; exact h
  · rw [step_keeps_u hs]; exact h
  · rw [he]; exact h
  · rw [he]; exact h

/-- Settles O40: a step keeps the unwired part of the state, to which U belongs, and every other transaction either
resets the core or writes no flag. -/
theorem unusedFlagReadsOne : Obligations.UnusedFlagReadsOne :=
  ⟨rfl, fun _ _ => step_keeps_u, fun t _ => transact_keeps_u_set t⟩

end Sys2Proof.Machine
end

section
/-! The access check R32 in the words of the statements, and what byte reads and writes answer under it
(20_memory.md section 2). -/

namespace Sys2Proof.Machine

theorem admitted_iff_le {addr : Nat} {g : Bool} :
    admitted addr g = true ↔ addr ≤ 0xFFFF ∧ ¬ (g = true ∧ InStackPage addr) :=
  admitted_iff.trans (and_congr_left' Nat.lt_succ_iff)

theorem admitted_unguarded {addr : Nat} (h : addr ≤ 0xFFFF) : admitted addr false = true :=
  admitted_iff_le.mpr ⟨h, by simp⟩

theorem not_admitted_guarded_stackPage {addr : Nat} (h : InStackPage addr) : admitted addr true = false :=
  Bool.eq_false_iff.mpr fun ha => (admitted_iff_le.mp ha).2 ⟨rfl, h⟩

/-- A one-byte sequence is admitted or refused exactly as its byte is. -/
theorem readBytes_one_ok {m : Memory} {addr : Nat} {g : Bool} (h : admitted addr g = true) :
    readBytes m addr 1 g = .ok [m.get addr] :=
  readBytes_ok_iff.mpr ⟨fun k hk => by obtain rfl := Nat.lt_one_iff.mp hk; exact h, rfl⟩

theorem readBytes_one_error {m : Memory} {addr : Nat} {g : Bool} (h : admitted addr g = false) :
    readBytes m addr 1 g = .error .outOfBounds :=
  readBytes_error_iff.mpr ⟨⟨0, Nat.one_pos, h⟩, rfl⟩

/-- Settles O1: an unguarded access inside the space is admitted and `Memory.get_put_same` gives the byte back, also a
stored 0x00, which the canonical form does not list; a guarded access to the stack page is not admitted. -/
theorem writeThenReadReturnsValue : Obligations.WriteThenReadReturnsValue := by
  unfold Obligations.WriteThenReadReturnsValue
  intro m addr v hwf haddr
  have hopen : admitted addr false = true := admitted_unguarded haddr
  have hwrite : writeByte m addr v false = .ok (m.put addr v) := writeByte_ok_iff.mpr ⟨hopen, rfl⟩
  have hback : readByte (m.put addr v) addr false = .ok v :=
    readByte_ok_iff.mpr ⟨hopen, Memory.get_put_same addr v hwf⟩
  refine ⟨⟨_, hwrite, hback⟩, fun hstack => ?_⟩
  have hclosed : admitted addr true = false := not_admitted_guarded_stackPage hstack
  exact ⟨readByte_error_iff.mpr ⟨hclosed, rfl⟩, writeByte_error_iff.mpr ⟨hclosed, rfl⟩,
    ⟨_, readByte_ok_iff.mpr ⟨hopen, rfl⟩⟩, _, hwrite⟩

/-- Settles O2: the premises of the two clauses are the two answers of the access check. -/
theorem byteReadAnswersCellOrOutOfBounds : Obligations.ByteReadAnswersCellOrOutOfBounds := by
  unfold Obligations.ByteReadAnswersCellOrOutOfBounds
  intro m addr g
  rw [← admitted_iff_le, Bool.not_eq_true]
  constructor
  · intro ha
    exact ⟨readByte_ok_iff.mpr ⟨ha, rfl⟩, readBytes_one_ok ha⟩
  · intro hr
    exact ⟨readByte_error_iff.mpr ⟨hr, rfl⟩, readBytes_one_error hr⟩

end Sys2Proof.Machine
end

section
/-! The nine bits carry and A that FlagUpdate leaves for a shifted accumulator (40_step_and_flag_update.md section 3). -/

namespace Sys2Proof.Machine

theorem exec_of_effectOf_ok {i : Instr} {s t : State} (h : effectOf i (charge i.op s) = .ok t) :
    exec i s = .next (t.setLastOutcome .ok) :=
  (exec_eq_execute i s).trans (execute_of_ok h)

@[simp] theorem truncate8_toNat (w : Nat) : (truncate8 w).toNat = w % 256 := by
  simp [truncate8]

/-- Carry and A together hold a wide value of at most nine bits without loss. -/
theorem writeA_carry_a {w : Nat} (hw : w < 512) (s : State) :
    (writeA w s).flags.c.toNat * 256 + (writeA w s).a.toNat = w := by
  simp only [writeA_flags, flagUpdate_c, writeA_a, truncate8_toNat]
  by_cases hc : 0xFF < w
  · simp only [hc, decide_true, Bool.toNat_true]; omega
  · simp only [hc, decide_false, Bool.toNat_false]; omega

/-- Settles O15: ASL and ROL pass `2A` and `2A + C` to `writeA`, and both fit in nine bits. -/
theorem shiftAmountIsOneBit : Obligations.ShiftAmountIsOneBit := by
  unfold Obligations.ShiftAmountIsOneBit
  intro s
  have ha : s.a.toNat < 256 := s.a.isLt
  have hc : s.flags.c.toNat ≤ 1 := s.flags.c.toNat_le
  constructor
  · refine ⟨_, exec_of_effectOf_ok (i := .aslA) rfl, ?_⟩
    calc _ = s.a.toNat * 2 := writeA_carry_a (by omega) (charge .aslA s)
      _ = 2 * s.a.toNat := Nat.mul_comm ..
  · refine ⟨_, exec_of_effectOf_ok (i := .rolA) rfl, ?_⟩
    calc _ = s.a.toNat * 2 + s.flags.c.toNat := writeA_carry_a (by omega) (charge .rolA s)
      _ = 2 * s.a.toNat + s.flags.c.toNat := by rw [Nat.mul_comm]

end Sys2Proof.Machine
end

section
/-! What the transactions other than reset and step can write, and the host's memory dump (50_host_interface.md R144 to
R146). -/

namespace Sys2Proof.Machine

/-! ## The halt flag -/

theorem step_keeps_halted {s t : State} (h : StepsTo s t) : t.halted = s.halted :=
  congrArg Unwired.halted (step_unwired h)

/-- No transaction but reset clears `halted` (R144). -/
theorem transact_keeps_halted_set {t : Transaction} {s : State} (hr : t ≠ .reset) (h : s.halted = true) :
    (transact t s).2.halted = true := by
  obtain ⟨he, -⟩ | ⟨_, _, _, m, -, -, he⟩ | ⟨-, hs⟩ | ⟨-, he⟩ | he := transact_state t s
  · exact absurd he hr
  · rw [he]; exact h
  · rw [step_keeps_halted hs]; exact h
  · rw [he]; rfl
  · rw [he]; exact h

theorem transactAll_keeps_halted_set {ts : List Transaction} (hr : .reset ∉ ts) {s : State} (h : s.halted = true) :
    (transactAll ts s).halted = true := by
  induction ts generalizing s with
  | nil => exact h
  | cons t rest ih =>
    have hne : t ≠ .reset := (List.ne_of_not_mem_cons hr).symm
    exact ih (List.not_mem_of_not_mem_cons hr) (transact_keeps_halted_set hne h)

/-- A set_halt anywhere in a list without reset leaves `halted` set at its end. -/
theorem transactAll_halted_of_setHalt {ts : List Transaction} (hs : .setHalt ∈ ts) (hr : .reset ∉ ts) (s : State) :
    (transactAll ts s).halted = true := by
  obtain ⟨before, after, rfl⟩ := List.append_of_mem hs
  rw [transactAll_append, transactAll_cons]
  refine transactAll_keeps_halted_set (fun hm => hr ?_) rfl
  exact List.mem_append_right _ (List.mem_cons_of_mem _ hm)

/-- Settles O50: `halted` is kept by a step and by every other transaction but reset, so it is still set at the
boundary after the list that holds a set_halt, and there the loop ends. -/
theorem haltFlagTransactions : Obligations.HaltFlagTransactions := by
  unfold Obligations.HaltFlagTransactions
  refine ⟨fun _ => rfl, fun _ => rfl, fun _ _ => transact_keeps_halted_set,
    fun host _ => hostLoop_of_halted _ host, fun between rest s hrun hset hreset => ?_⟩
  calc runLoop (between :: rest) s
      = runLoop rest (transactAll between (transact .step s).2) := hostLoop_round between rest hrun rfl
    _ = transactAll between (transact .step s).2 :=
        hostLoop_of_halted _ rest (transactAll_halted_of_setHalt hset hreset _)

/-! ## The registers and flags -/

/-- 50_host_interface.md R145: there is no outside write but load_program's bytes and set_halt's flag. -/
theorem transact_writes_mem_halted_only {t : Transaction} (s : State) (hr : t ≠ .reset) (hs : t ≠ .step) :
    ∃ m h, (transact t s).2 = (s.setMem m).setHalted h := by
  obtain ⟨he, -⟩ | ⟨_, _, _, m, -, -, he⟩ | ⟨he, -⟩ | ⟨-, he⟩ | he := transact_state t s
  · exact absurd he hr
  · exact ⟨m, s.halted, he⟩
  · exact absurd he hs
  · exact ⟨s.mem, true, he⟩
  · exact ⟨s.mem, s.halted, he⟩

/-- Settles O51: each getter is its arm of `transact`; a transaction that is neither reset nor step writes at most
memory and `halted`. -/
theorem gettersReadOnly : Obligations.GettersReadOnly := by
  unfold Obligations.GettersReadOnly
  constructor
  · intro s
    exact ⟨rfl, rfl, rfl, rfl, rfl, rfl, rfl, rfl, rfl, rfl, rfl, rfl, rfl, rfl, rfl⟩
  · intro t s hr hs
    obtain ⟨m, h, he⟩ := transact_writes_mem_halted_only s hr hs
    rw [he]
    exact ⟨rfl, rfl, rfl, rfl, rfl, rfl⟩

/-! ## The memory dump -/

/-- The dump is unguarded, so only the end of the address space bounds it. -/
theorem dumpBytes_of_fits {addr count : Nat} (s : State) (h : addr + count ≤ 65536) :
    dumpBytes s addr count = .ok ((List.range count).map fun k => s.mem.get (addr + k)) :=
  readBytes_ok_iff.mpr ⟨fun k hk => admitted_unguarded (by omega), rfl⟩

/-- The last byte of such a dump has no cell; nothing wraps (R32). -/
theorem dumpBytes_past_end {addr count : Nat} (s : State) (hc : 0 < count) (h : 65536 < addr + count) :
    dumpBytes s addr count = .error .outOfBounds := by
  refine readBytes_error_iff.mpr ⟨⟨count - 1, by omega, ?_⟩, rfl⟩
  refine Bool.eq_false_iff.mpr fun ha => ?_
  have hlast : addr + (count - 1) ≤ 0xFFFF := (admitted_iff_le.mp ha).1
  omega

theorem transact_readBytes_ok {addr count : Nat} {s : State} {l : List Byte} (h : dumpBytes s addr count = .ok l) :
    transact (.readBytes addr count) s = (.bytes l, s) := by
  simp [transact, h]

theorem transact_readBytes_error {addr count : Nat} {s : State} {k : MemError}
    (h : dumpBytes s addr count = .error k) : transact (.readBytes addr count) s = (.failed k, s) := by
  simp [transact, h]

/-- A dump leaves the state, whether it answers or fails. -/
theorem transact_readBytes_state (addr count : Nat) (s : State) : (transact (.readBytes addr count) s).2 = s := by
  cases h : dumpBytes s addr count with
  | ok l => rw [transact_readBytes_ok h]
  | error k => rw [transact_readBytes_error h]

/-- Settles O52: the dump's access is unguarded, so the last byte of the range decides whether it is admitted. -/
theorem dumpReadsAnyRange : Obligations.DumpReadsAnyRange := by
  unfold Obligations.DumpReadsAnyRange
  intro addr count s
  refine ⟨transact_readBytes_state addr count s, fun hfits => ?_, fun hc hpast => ?_⟩
  · refine ⟨_, transact_readBytes_ok (dumpBytes_of_fits s hfits), by simp, fun k hk => ?_⟩
    simp [List.getD_eq_getElem?_getD, hk]
  · exact transact_readBytes_error (dumpBytes_past_end s hc hpast)

end Sys2Proof.Machine
end

section
/-! The decoder and the encoder are inverse to each other (30_encoding.md). -/

namespace Sys2Proof

/-- Operand assembly undoes `operandBytes`. -/
@[simp] theorem assemble_operandBytes (i : Instr) : assemble i.op (operandBytes i) = i := by
  cases i with
  | brk | aslA | clc | rolA | rts | adcImm imm | ldaImm imm => rfl
  | adcAbs ea => exact congrArg Instr.adcAbs (joinBytes_hi8_lo8 ea)
  | staAbs ea => exact congrArg Instr.staAbs (joinBytes_hi8_lo8 ea)

/-- The operand bytes of an absolute operand are the two bytes it was assembled from. -/
theorem wordBytes_operandWord {l : List Byte} (h : l.length = 2) : [lo8 (operandWord l), hi8 (operandWord l)] = l := by
  obtain ⟨lo, hi, rfl⟩ := List.length_eq_two.mp h
  simp [operandWord, operandByte, lo8_joinBytes, hi8_joinBytes]

/-- `operandBytes` undoes operand assembly, for the number of bytes the operation has. -/
theorem operandBytes_assemble {op : Op} {l : List Byte} (h : l.length = Params.operandCount op) :
    operandBytes (assemble op l) = l := by
  cases op with
  | brk | aslA | clc | rolA | rts => exact (List.length_eq_zero_iff.mp h).symm
  | adcImm | ldaImm => obtain ⟨b, rfl⟩ := List.length_eq_one_iff.mp h; rfl
  | adcAbs | staAbs => exact wordBytes_operandWord h

theorem decode_cons_unknown {b : Byte} (rest : List Byte) (h : lookupOp b = none) :
    decode (b :: rest) = .error (.unknownOpcode b) := by
  simp [decode, h]

/-- A known opcode takes its operand bytes from the front of what follows. -/
theorem decode_cons_operands {b : Byte} {op : Op} {operands : List Byte} (rest : List Byte)
    (h : lookupOp b = some op) (hl : operands.length = Params.operandCount op) :
    decode (b :: (operands ++ rest)) = .ok (assemble op operands, rest) := by
  simp [decode, h, ← hl]

/-- All a sequence the decoder accepts can be. -/
theorem decode_ok {bytes rest : List Byte} {i : Instr} (h : decode bytes = .ok (i, rest)) :
    ∃ b op operands, lookupOp b = some op ∧ operands.length = Params.operandCount op ∧
      bytes = b :: (operands ++ rest) ∧ i = assemble op operands := by
  cases bytes with
  | nil => simp [decode] at h
  | cons b tail =>
    cases hl : lookupOp b with
    | none => simp [decode_cons_unknown tail hl] at h
    | some op =>
      simp only [decode, hl] at h
      split at h
      · simp at h
      · obtain ⟨rfl, rfl⟩ : assemble op _ = i ∧ _ = rest := by simpa using h
        exact ⟨b, op, tail.take (Params.operandCount op), hl, by simp; omega, by simp, rfl⟩

/-- Settles O44: the opcode selects its own operation again, whose operand count cuts the operand bytes off the rest. -/
theorem decodeOfEncode : Obligations.DecodeOfEncode := by
  unfold Obligations.DecodeOfEncode
  intro i rest
  calc decode (encode i ++ rest)
      = .ok (assemble i.op (operandBytes i), rest) :=
        decode_cons_operands rest (lookupOp_opcode i.op) (operandBytes_length i)
    _ = .ok (i, rest) := by rw [assemble_operandBytes]

/-- Settles O45: what was looked up has the opcode it was looked up by, and assembly loses no operand byte. -/
theorem encodeOfDecode : Obligations.EncodeOfDecode := by
  unfold Obligations.EncodeOfDecode
  intro bytes rest i h
  obtain ⟨b, op, operands, hlook, hlen, rfl, rfl⟩ := decode_ok h
  simp [encode, opcode_of_lookupOp hlook, operandBytes_assemble hlen]

theorem lookupOp_none_of_not_mem {b : Byte}
    (h : b ∉ [0x00, 0x0A, 0x18, 0x2A, 0x60, 0x69, 0x6D, 0x8D, 0xA9]) : lookupOp b = none := by
  refine Option.eq_none_iff_forall_ne_some.mpr fun op hop => h ?_
  rw [← opcode_of_lookupOp hop]
  cases op <;> decide

/-- The opcode bytes of the map, as numbers. -/
def opcodeNumbers : Finset Nat := (Op.all.map fun op => (Params.opcode op).toNat).toFinset

theorem lookupOp_isNone_iff {n : Nat} (hn : n < 256) :
    (lookupOp (BitVec.ofNat 8 n)).isNone = true ↔ n ∉ opcodeNumbers := by
  have hb (op : Op) : Params.opcode op = BitVec.ofNat 8 n ↔ (Params.opcode op).toNat = n := by
    rw [← BitVec.toNat_inj, BitVec.toNat_ofNat, Nat.mod_eq_of_lt hn]
  simp [lookupOp, opcodeNumbers, hb]

/-- 30_encoding.md section 4: the nine opcodes are distinct, so 256 - 9 bytes are unknown. -/
theorem unknown_opcode_count :
    ((List.range 256).filter fun n => (lookupOp (BitVec.ofNat 8 n)).isNone).length = 247 := by
  have hunknown : (Finset.range 256).filter (fun n => (lookupOp (BitVec.ofNat 8 n)).isNone) =
      Finset.range 256 \ opcodeNumbers := by
    ext n
    simp only [Finset.mem_filter, Finset.mem_sdiff, Finset.mem_range]
    exact and_congr_right lookupOp_isNone_iff
  have hsub : opcodeNumbers ⊆ Finset.range 256 := by decide
  calc ((List.range 256).filter fun n => (lookupOp (BitVec.ofNat 8 n)).isNone).length
      = ((Finset.range 256).filter fun n => (lookupOp (BitVec.ofNat 8 n)).isNone).card := by
        simp only [Finset.card, Finset.filter, Finset.range, Multiset.range, Multiset.filter_coe, Multiset.coe_card,
          Bool.decide_eq_true]
    _ = 256 - opcodeNumbers.card := by rw [hunknown, Finset.card_sdiff_of_subset hsub, Finset.card_range]
    _ = 247 := rfl

/-- Settles O46: a byte that is none of the nine opcodes selects no operation. -/
theorem otherOpcodesUnknown : Obligations.OtherOpcodesUnknown :=
  ⟨unknown_opcode_count, fun _ rest h => decode_cons_unknown rest (lookupOp_none_of_not_mem h)⟩

/-- Settles O47: the nine words are evaluated. -/
theorem opcodeMapWords : Obligations.OpcodeMapWords := by
  unfold Obligations.OpcodeMapWords
  decide

/-- Settles O48: the decoder joins the second operand byte over the first. -/
theorem absoluteOperandLowByteFirst : Obligations.AbsoluteOperandLowByteFirst :=
  fun lo hi => ⟨joinBytes hi lo, joinBytes_toNat hi lo, rfl, rfl⟩

end Sys2Proof
end

section
/-! What an instruction leaves when it completes and when it fails, each said once as a state: every later proof about
an instruction, a step or a transaction goes through these five shapes and the one of a failure. -/

namespace Sys2Proof.Machine

/-- LDA, ASL, ROL, ADC for the wide value `w` (40_step_and_flag_update.md R93): A and the flags from it. -/
def wroteA (op : Op) (w : Nat) (s : State) : State := (advance op (writeA w (charge op s))).setLastOutcome .ok

/-- CLC (44_flag_ops.md R117). -/
def clearedC (s : State) : State :=
  (advance .clc ((charge .clc s).setFlags { s.flags with c := false })).setLastOutcome .ok

/-- STA to an address it may write (41_load_store.md R101). -/
def storedA (ea : Word) (s : State) : State :=
  (advance .staAbs (updateFlags s.a s.a.toNat
    ((charge .staAbs s).setMem (s.mem.put (absAddr ea) s.a)))).setLastOutcome .ok

/-- BRK with three free slots (45_control_system.md R120). -/
def trapped (s : State) : State :=
  (((((charge .brk s).setMem (s.mem.putDown (stackAddr s.sp) (trapFrame s))).setSp (s.sp - 3)).setFlags
    { s.flags with b := true }).setPc (s.pc + 1)).setLastOutcome .ok

/-- RTS with two bytes to pop (45_control_system.md R121). -/
def returned (s : State) : State :=
  (((charge .rts s).setSp (s.sp + 2)).setPc
    (joinBytes (s.mem.get (stackAddr s.sp + 2)) (s.mem.get (stackAddr s.sp + 1)))).setLastOutcome .ok

/-- An execute that failed: only the cost happened (40_step_and_flag_update.md R84). -/
def execFailed (op : Op) (k : MemError) (s : State) : State := (charge op s).setLastOutcome (.execError k)

/-! ## Each instruction's answer -/

theorem exec_ldaImm (imm : Byte) (s : State) : exec (.ldaImm imm) s = .next (wroteA .ldaImm imm.toNat s) := rfl

theorem exec_aslA (s : State) : exec .aslA s = .next (wroteA .aslA (s.a.toNat * 2) s) := rfl

theorem exec_rolA (s : State) : exec .rolA s = .next (wroteA .rolA (s.a.toNat * 2 + s.flags.c.toNat) s) := rfl

theorem exec_clc (s : State) : exec .clc s = .next (clearedC s) := rfl

/-- V is written back as it was, by decision D11, so ADC is `writeA` too. -/
theorem exec_adcImm (imm : Byte) (s : State) :
    exec (.adcImm imm) s = .next (wroteA .adcImm (s.a.toNat + imm.toNat + s.flags.c.toNat) s) := rfl

theorem exec_adcAbs {ea : Word} (s : State) (h : ¬ InStackPage (absAddr ea)) :
    exec (.adcAbs ea) s =
      .next (wroteA .adcAbs (s.a.toNat + (s.mem.get (absAddr ea)).toNat + s.flags.c.toNat) s) :=
  exec_of_effectOf_ok (i := .adcAbs ea) (effectAdcAbs_ok_iff.mpr ⟨h, rfl⟩)

theorem exec_staAbs {ea : Word} (s : State) (h : ¬ InStackPage (absAddr ea)) :
    exec (.staAbs ea) s = .next (storedA ea s) :=
  exec_of_effectOf_ok (i := .staAbs ea) (effectStaAbs_ok_iff.mpr ⟨h, rfl⟩)

theorem exec_brk {s : State} (h : 2 ≤ s.sp.toNat) : exec .brk s = .next (trapped s) :=
  exec_of_effectOf_ok (i := .brk) (takeTrap_ok_iff.mpr ⟨h, rfl⟩)

theorem exec_rts {s : State} (h : s.sp.toNat ≤ 253) : exec .rts s = .next (returned s) :=
  exec_of_effectOf_ok (i := .rts) (returnFromStack_ok_iff.mpr ⟨h, rfl⟩)

/-! ## All an instruction can do -/

/-- 60_exceptions.md section 1: the rows of the table of execute errors. -/
def ExecFails (i : Instr) (s : State) (k : MemError) : Prop :=
  (i = .brk ∧ s.sp.toNat < 2 ∧ k = .pushOutOfSpace) ∨
  (i = .rts ∧ s.sp = 0xFF ∧ k = .popStackEmpty) ∨
  (i = .rts ∧ s.sp = 0xFE ∧ k = .popTooManyBytesRequested) ∨
  (∃ ea, (i = .staAbs ea ∨ i = .adcAbs ea) ∧ InStackPage (absAddr ea) ∧ k = .outOfBounds)

theorem exec_of_execFails {i : Instr} {s : State} {k : MemError} (h : ExecFails i s k) :
    exec i s = .next (execFailed i.op k s) := by
  refine (exec_eq_execute i s).trans (execute_of_error ?_)
  obtain ⟨rfl, hsp, rfl⟩ | ⟨rfl, hsp, rfl⟩ | ⟨rfl, hsp, rfl⟩ | ⟨ea, rfl | rfl, hp, rfl⟩ := h
  · exact takeTrap_error_iff.mpr ⟨hsp, rfl⟩
  · exact returnFromStack_error_iff.mpr (.inl ⟨hsp, rfl⟩)
  · exact returnFromStack_error_iff.mpr (.inr ⟨hsp, rfl⟩)
  · simp [effectOf, effectStaAbs, writeAbs_error_iff.mpr ⟨hp, rfl⟩, Except.map]
  · simp [effectOf, effectAdcAbs, readAbs_error_iff.mpr ⟨hp, rfl⟩, Except.map]

/-- `t` is what `i` leaves from `s` when it completes. The wide value of the accumulator shape is left open. -/
inductive Completes : Instr → State → State → Prop where
  | wroteA {i : Instr} {s : State} (w : Nat) (hop : i.op ∈ [Op.ldaImm, .aslA, .rolA, .adcImm, .adcAbs]) :
      Completes i s (wroteA i.op w s)
  | clearedC {s : State} : Completes .clc s (clearedC s)
  | storedA {ea : Word} {s : State} (outside : ¬ InStackPage (absAddr ea)) : Completes (.staAbs ea) s (storedA ea s)
  | trapped {s : State} (space : 2 ≤ s.sp.toNat) : Completes .brk s (trapped s)
  | returned {s : State} (full : s.sp.toNat ≤ 253) : Completes .rts s (returned s)

/-- Every instruction completes in one of the five shapes, or fails by a row of the table. -/
theorem exec_cases (i : Instr) (s : State) :
    (∃ t, Completes i s t ∧ exec i s = .next t) ∨ (∃ k, ExecFails i s k) := by
  cases i with
  | ldaImm imm => exact .inl ⟨_, .wroteA _ (by simp [Instr.op]), exec_ldaImm imm s⟩
  | aslA => exact .inl ⟨_, .wroteA _ (by simp [Instr.op]), exec_aslA s⟩
  | rolA => exact .inl ⟨_, .wroteA _ (by simp [Instr.op]), exec_rolA s⟩
  | adcImm imm => exact .inl ⟨_, .wroteA _ (by simp [Instr.op]), exec_adcImm imm s⟩
  | clc => exact .inl ⟨_, .clearedC, exec_clc s⟩
  | adcAbs ea =>
    by_cases hp : InStackPage (absAddr ea)
    · exact .inr ⟨_, .inr (.inr (.inr ⟨ea, .inr rfl, hp, rfl⟩))⟩
    · exact .inl ⟨_, .wroteA _ (by simp [Instr.op]), exec_adcAbs s hp⟩
  | staAbs ea =>
    by_cases hp : InStackPage (absAddr ea)
    · exact .inr ⟨_, .inr (.inr (.inr ⟨ea, .inl rfl, hp, rfl⟩))⟩
    · exact .inl ⟨_, .storedA hp, exec_staAbs s hp⟩
  | brk =>
    by_cases hsp : s.sp.toNat < 2
    · exact .inr ⟨_, .inl ⟨rfl, hsp, rfl⟩⟩
    · exact .inl ⟨_, .trapped (Nat.le_of_not_lt hsp), exec_brk (Nat.le_of_not_lt hsp)⟩
  | rts =>
    obtain hsp | hsp | hsp : s.sp = 0xFF ∨ s.sp = 0xFE ∨ s.sp.toNat ≤ 253 := by bv_omega
    · exact .inr ⟨_, .inr (.inl ⟨rfl, hsp, rfl⟩)⟩
    · exact .inr ⟨_, .inr (.inr (.inl ⟨rfl, hsp, rfl⟩))⟩
    · exact .inl ⟨_, .returned hsp, exec_rts hsp⟩

theorem exec_next_cases {i : Instr} {s t : State} (h : exec i s = .next t) :
    Completes i s t ∨ (∃ k, ExecFails i s k ∧ t = execFailed i.op k s) := by
  obtain ⟨t', hc, hx⟩ | ⟨k, hk⟩ := exec_cases i s
  · obtain rfl : t = t' := by simpa using h.symm.trans hx
    exact .inl hc
  · exact .inr ⟨k, hk, by simpa using h.symm.trans (exec_of_execFails hk)⟩

/-- All a step can do. -/
theorem step_next_cases {s t : State} (h : StepsTo s t) :
    (∃ e, fetch s.mem s.pc = .error e ∧ t = failFetch e s) ∨
    (∃ i, fetch s.mem s.pc = .ok i ∧ Completes i s t) ∨
    (∃ i k, fetch s.mem s.pc = .ok i ∧ ExecFails i s k ∧ t = execFailed i.op k s) := by
  obtain ⟨e, hf, ht⟩ | ⟨i, hf, hx⟩ := step_next h
  · exact .inl ⟨e, hf, ht⟩
  · obtain hc | ⟨k, hk, ht⟩ := exec_next_cases hx
    · exact .inr (.inl ⟨i, hf, hc⟩)
    · exact .inr (.inr ⟨i, k, hf, hk, ht⟩)

theorem Completes.noFault {i : Instr} {s t : State} (h : Completes i s t) : t.noFault := by
  cases h <;> rfl

theorem not_noFault_execFailed (op : Op) (k : MemError) (s : State) : ¬ (execFailed op k s).noFault := nofun

/-- A step that returned an error. -/
theorem step_failed {s t : State} (h : StepsTo s t) (bad : ¬ t.noFault) :
    (∃ e, t = failFetch e s) ∨ ∃ op k, t = execFailed op k s := by
  obtain ⟨e, -, rfl⟩ | ⟨i, -, hc⟩ | ⟨i, k, -, -, rfl⟩ := step_next_cases h
  · exact .inl ⟨e, rfl⟩
  · exact absurd hc.noFault bad
  · exact .inr ⟨_, k, rfl⟩

/-- A step that returned Ok ran an instruction to its completion. -/
theorem step_completed {s t : State} {i : Instr} (h : StepsTo s t) (ok : t.noFault) (hf : fetch s.mem s.pc = .ok i) :
    Completes i s t := by
  obtain hc | ⟨k, -, rfl⟩ := exec_next_cases ((step_of_fetch hf).symm.trans h)
  · exact hc
  · exact absurd ok (not_noFault_execFailed _ k s)

end Sys2Proof.Machine
end

section
/-! The invariant: X, Y, V, D, I, U are never written, and every write of memory keeps the canonical form. -/

namespace Sys2Proof.Machine

/-- The three ways memory is after an instruction: as it was, one byte stored, or a BRK frame pushed. -/
theorem Completes.mem_cases {i : Instr} {s t : State} (h : Completes i s t) :
    t.mem = s.mem ∨
    (∃ ea, i = .staAbs ea ∧ ¬ InStackPage (absAddr ea) ∧ t.mem = s.mem.put (absAddr ea) s.a) ∨
    (i = .brk ∧ 2 ≤ s.sp.toNat ∧ t.mem = s.mem.putDown (stackAddr s.sp) (trapFrame s)) := by
  cases h with
  | wroteA | clearedC | returned => exact .inl rfl
  | storedA hp => exact .inr (.inl ⟨_, rfl, hp, rfl⟩)
  | trapped hsp => exact .inr (.inr ⟨rfl, hsp, rfl⟩)

theorem Completes.wf {i : Instr} {s t : State} (h : Completes i s t) (hw : s.mem.wf = true) : t.mem.wf = true := by
  obtain hm | ⟨ea, -, -, hm⟩ | ⟨-, -, hm⟩ := h.mem_cases <;> rw [hm]
  · exact hw
  · exact Memory.put_wf s.a hw ea.isLt
  · exact Memory.putDown_wf hw (stackAddr_lt s.sp)

theorem step_wf {s t : State} (h : StepsTo s t) (hw : s.mem.wf = true) : t.mem.wf = true := by
  obtain ⟨e, -, rfl⟩ | ⟨i, -, hc⟩ | ⟨i, k, -, -, rfl⟩ := step_next_cases h
  · exact hw
  · exact hc.wf hw
  · exact hw

theorem UnwiredAtReset.of_unwired_eq {s t : State} (h : UnwiredAtReset s) (he : t.unwired = s.unwired) :
    UnwiredAtReset t where
  x := (congrArg Unwired.x he).trans h.x
  y := (congrArg Unwired.y he).trans h.y
  v := (congrArg Unwired.v he).trans h.v
  d := (congrArg Unwired.d he).trans h.d
  i := (congrArg Unwired.i he).trans h.i
  u := (congrArg Unwired.u he).trans h.u

theorem step_keeps_inv {s t : State} (hi : Inv s) (h : StepsTo s t) : Inv t :=
  ⟨step_wf h hi.memory, hi.unwired.of_unwired_eq (step_unwired h)⟩

/-- Settles O59: the memory stays canonical by `step_wf`, and `step_unwired` keeps the rest. -/
theorem stepKeepsInvariant : Obligations.StepKeepsInvariant := fun _ _ => step_keeps_inv

/-- Settles O58: the empty memory is canonical. -/
theorem resetMeetsInvariant : Obligations.ResetMeetsInvariant where
  memory := rfl
  unwired := ⟨rfl, rfl, rfl, rfl, rfl, rfl⟩

theorem loadProgram_ok_iff {m m' : Memory} {start : Word} {bytes : List Byte} {g : Bool} :
    loadProgram m start bytes g = .ok m' ↔
      start.toNat + bytes.length + 1 ≤ 65536 ∧
      ¬ (g = true ∧ start.toNat ≤ 0x01FF ∧ 0x0100 ≤ start.toNat + bytes.length) ∧
      m.putUp start.toNat (bytes ++ [Config.brkOpcode]) = m' := by
  have hsize : Config.memSize = 65536 := rfl
  have hbase : Config.stackBase = 0x0100 := rfl
  have htop : Config.stackTop = 0x01FF := rfl
  unfold loadProgram
  split_ifs with hlarge hpage
  · simp only [false_iff]; omega
  · simp only [hbase, htop, Bool.and_eq_true, decide_eq_true_eq, and_assoc] at hpage
    simp only [false_iff]
    exact fun h => h.2.1 hpage
  · simp only [hbase, htop, Bool.and_eq_true, decide_eq_true_eq, and_assoc] at hpage
    simp only [Except.ok.injEq]
    exact ⟨fun h => ⟨by omega, hpage, h⟩, fun h => h.2.2⟩

theorem loadProgram_wf {m m' : Memory} {start : Word} {bytes : List Byte} {g : Bool}
    (h : loadProgram m start bytes g = .ok m') (hw : m.wf = true) : m'.wf = true := by
  obtain ⟨hfits, -, rfl⟩ := loadProgram_ok_iff.mp h
  refine Memory.putUp_wf hw ?_
  rwa [List.length_append, List.length_singleton, ← Nat.add_assoc]

theorem transact_keeps_inv (t : Transaction) {s : State} (hi : Inv s) : Inv (transact t s).2 := by
  obtain ⟨-, he⟩ | ⟨start, bytes, g, m, -, hl, he⟩ | ⟨-, hs⟩ | ⟨-, he⟩ | he := transact_state t s
  · rw [he]; exact resetMeetsInvariant
  · rw [he]; exact ⟨loadProgram_wf hl hi.memory, hi.unwired.of_unwired_eq rfl⟩
  · exact step_keeps_inv hi hs
  · rw [he]; exact ⟨hi.memory, ⟨hi.unwired.x, hi.unwired.y, hi.unwired.v, hi.unwired.d, hi.unwired.i, hi.unwired.u⟩⟩
  · rw [he]; exact hi

theorem reachable_inv {s : State} (h : Reachable s) : Inv s := by
  induction h with
  | reset => exact resetMeetsInvariant
  | transaction _ t ih => exact transact_keeps_inv t ih

/-- Settles O60, by induction on the transactions that lead to the state. -/
theorem reachableStatesMeetInvariant : Obligations.ReachableStatesMeetInvariant :=
  ⟨fun t _ => transact_keeps_inv t, fun _ => reachable_inv⟩

theorem unwired_eq_iff {s t : State} :
    t.unwired = s.unwired ↔
      t.x = s.x ∧ t.y = s.y ∧ t.flags.v = s.flags.v ∧ t.flags.d = s.flags.d ∧ t.flags.i = s.flags.i ∧
        t.flags.u = s.flags.u ∧ t.halted = s.halted := by
  simp [State.unwired]

/-- Settles O41: the unwired part of the state is the same after the step. -/
theorem stepKeepsUnwiredState : Obligations.StepKeepsUnwiredState := fun _ _ h => unwired_eq_iff.mp (step_unwired h)

/-- Settles O57: each value is State.reset's own. -/
theorem resetValues : Obligations.ResetValues :=
  ⟨rfl, rfl, rfl, rfl, rfl, rfl, rfl, rfl, rfl, rfl, rfl, rfl, rfl, rfl, rfl, fun _ => rfl, fun _ => rfl⟩

end Sys2Proof.Machine
end

section
/-! The multi-byte access, the stack primitives and load_program in the words of the statements (20_memory.md sections 2
and 3, 50_host_interface.md section 1). -/

namespace Sys2Proof.Machine

/-- Settles O3: an admitted write is one `Memory.put`. -/
theorem byteWriteChangesOneCell : Obligations.ByteWriteChangesOneCell := by
  unfold Obligations.ByteWriteChangesOneCell
  intro m addr v g hwf
  rw [← admitted_iff_le, Bool.not_eq_true]
  constructor
  · intro ha
    exact ⟨m.put addr v, writeByte_ok_iff.mpr ⟨ha, rfl⟩, Memory.get_put_same addr v hwf,
      fun _ hne => Memory.get_put_ne m v hne, Memory.put_wf v hwf (admitted_lt ha)⟩
  · intro hr
    exact writeByte_error_iff.mpr ⟨hr, rfl⟩

/-! ## Bytes at ascending addresses -/

theorem map_range_eq_iff {f : Nat → Byte} {n : Nat} {l : List Byte} :
    (List.range n).map f = l ↔ l.length = n ∧ ∀ k, k < n → f k = l.getD k 0 := by
  constructor
  · rintro rfl
    refine ⟨by simp, fun k hk => ?_⟩
    simp [List.getD_eq_getElem?_getD, hk]
  · rintro ⟨rfl, hf⟩
    refine List.ext_getElem (by simp) fun k _ hk => ?_
    simp [hf k hk, hk]

theorem readBytes_error_iff_readByte {m : Memory} {addr n : Nat} {g : Bool} :
    readBytes m addr n g = .error .outOfBounds ↔ ∃ k, k < n ∧ readByte m (addr + k) g = .error .outOfBounds := by
  simp [readBytes_error_iff, readByte_error_iff]

theorem readBytes_ok_iff_readByte {m : Memory} {addr n : Nat} {g : Bool} {l : List Byte} :
    readBytes m addr n g = .ok l ↔
      l.length = n ∧ ∀ k, k < n → readByte m (addr + k) g = .ok (l.getD k 0) := by
  simp only [readBytes_ok_iff, readByte_ok_iff, map_range_eq_iff]
  exact ⟨fun ⟨ha, hl, hf⟩ => ⟨hl, fun k hk => ⟨ha k hk, hf k hk⟩⟩,
    fun ⟨hl, h⟩ => ⟨fun k hk => (h k hk).1, hl, fun k hk => (h k hk).2⟩⟩

/-- Settles O4: the multi-byte read is the conjunction of its byte reads. -/
theorem multiByteReadAllOrNothing : Obligations.MultiByteReadAllOrNothing :=
  fun _ _ _ _ => ⟨readBytes_error_iff_readByte, fun _ => readBytes_ok_iff_readByte, rfl⟩

/-! ## The stack primitives -/

theorem stackPush_ok (m : Memory) {sp : Byte} {bytes : List Byte} (hne : bytes ≠ [])
    (hfits : bytes.length ≤ sp.toNat + 1) : stackPush m sp bytes = .ok (m.putDown (stackAddr sp) bytes) :=
  stackPush_ok_iff.mpr ⟨List.length_pos_iff.mpr hne, hfits, rfl⟩

theorem stackAddr_eq (sp : Byte) : stackAddr sp = 0x0100 + sp.toNat := rfl

/-- The byte pushed as number `k` stands `k` below the stack address. -/
theorem get_pushed {m : Memory} {sp : Byte} {bytes : List Byte} (hwf : m.wf = true)
    (hfits : bytes.length ≤ sp.toNat + 1) {k : Nat} (hk : k < bytes.length) :
    (m.putDown (stackAddr sp) bytes).get (0x0100 + sp.toNat - k) = bytes.getD k 0 :=
  Memory.get_putDown_inside hwf (stackAddr_lt sp) (by rw [stackAddr_eq]; omega) hk

/-- Settles O5: a push that passes both checks is one descending run of writes. -/
theorem pushWritesDescending : Obligations.PushWritesDescending := by
  unfold Obligations.PushWritesDescending
  intro m sp bytes hwf
  refine ⟨fun he => stackPush_error_iff.mpr (.inl ⟨by simp [he], rfl⟩),
    fun hlong => stackPush_error_iff.mpr (.inr ⟨hlong, rfl⟩), fun hne hfits => ?_⟩
  refine ⟨_, stackPush_ok m hne hfits, fun k hk => get_pushed hwf hfits hk, fun addr ha => ?_,
    Memory.putDown_wf hwf (stackAddr_lt sp)⟩
  rw [stackAddr_eq]
  exact Memory.get_putDown_outside (by omega) ha

/-- Settles O6: the clauses are the cases of `stackPop_error_iff` and `stackPop_ok_iff`. -/
theorem popReadsAscending : Obligations.PopReadsAscending := by
  unfold Obligations.PopReadsAscending
  intro m sp n
  have hempty : sp = 0xFF ↔ sp.toNat = 255 := by simp [← BitVec.toNat_inj]
  rw [Ne, Ne, hempty]
  refine ⟨fun hz => stackPop_error_iff.mpr (.inl ⟨hz, rfl⟩),
    fun hn hsp => stackPop_error_iff.mpr (.inr (.inl ⟨hn, hsp, rfl⟩)),
    fun hn hsp hmany => stackPop_error_iff.mpr (.inr (.inr ⟨hn, hsp, hmany, rfl⟩)), fun hn hfits => ?_⟩
  obtain ⟨hlen, hget⟩ := map_range_eq_iff.mp (rfl : (List.range n).map (fun k => m.get (stackAddr sp + 1 + k)) = _)
  exact ⟨_, stackPop_ok_iff.mpr ⟨Nat.pos_of_ne_zero hn, hfits, rfl⟩, hlen, fun k hk => (hget k hk).symm⟩

/-- A pop that starts where the push ended reads the pushed run from its other end. -/
theorem stackPop_pushed {m : Memory} {sp : Byte} {bytes : List Byte} (hwf : m.wf = true) (hne : bytes ≠ [])
    (hfits : bytes.length ≤ sp.toNat) :
    stackPop (m.putDown (stackAddr sp) bytes) (sp - BitVec.ofNat 8 bytes.length) bytes.length = .ok bytes.reverse := by
  have hlt := sp.isLt
  have hsp : (sp - BitVec.ofNat 8 bytes.length).toNat = sp.toNat - bytes.length := by
    rw [BitVec.toNat_sub, BitVec.toNat_ofNat]; omega
  refine stackPop_ok_iff.mpr ⟨List.length_pos_iff.mpr hne, by omega, ?_⟩
  refine map_range_eq_iff.mpr ⟨List.length_reverse, fun k hk => ?_⟩
  have haddr : stackAddr (sp - BitVec.ofNat 8 bytes.length) + 1 + k = 0x0100 + sp.toNat - (bytes.length - 1 - k) := by
    rw [stackAddr_eq, hsp]; omega
  rw [haddr, get_pushed hwf (by omega) (by omega)]
  simp [List.getD_eq_getElem?_getD, List.getElem?_reverse hk]

/-- Settles O7: SP after the push is just below the pushed run, or wraps to the empty position. -/
theorem pushThenPopReturnsReversed : Obligations.PushThenPopReturnsReversed := by
  unfold Obligations.PushThenPopReturnsReversed
  intro m sp bytes hwf hne
  refine ⟨fun hfits => ⟨_, stackPush_ok m hne (by omega), stackPop_pushed hwf hne hfits⟩,
    fun hfull => ⟨_, stackPush_ok m hne hfull.le, ?_⟩⟩
  have hlt := sp.isLt
  have hwrap : (sp - BitVec.ofNat 8 bytes.length).toNat = 255 := by
    rw [BitVec.toNat_sub, BitVec.toNat_ofNat]; omega
  exact stackPop_error_iff.mpr (.inr (.inl ⟨by simpa using hne, hwrap, rfl⟩))

/-! ## load_program -/

theorem transact_loadProgram_ok {start : Word} {bytes : List Byte} {g : Bool} {s : State} {m : Memory}
    (h : loadProgram s.mem start bytes g = .ok m) : transact (.loadProgram start bytes g) s = (.done, s.setMem m) := by
  simp [transact, h]

theorem transact_loadProgram_error {start : Word} {bytes : List Byte} {g : Bool} {s : State} {k : MemError}
    (h : loadProgram s.mem start bytes g = .error k) : transact (.loadProgram start bytes g) s = (.failed k, s) := by
  simp [transact, h]

/-- Settles O53: the program and its sentinel are one ascending run of writes. -/
theorem loadProgramWritesBytesAndSentinel : Obligations.LoadProgramWritesBytesAndSentinel := by
  unfold Obligations.LoadProgramWritesBytesAndSentinel
  intro start bytes g s hwf hfits hguard
  have hlen : (bytes ++ [Config.brkOpcode]).length = bytes.length + 1 := by simp
  have hin : start.toNat + (bytes ++ [Config.brkOpcode]).length ≤ Config.memSize := hlen ▸ hfits
  have hpage : ¬ (g = true ∧ start.toNat ≤ 0x01FF ∧ 0x0100 ≤ start.toNat + bytes.length) := by
    rintro ⟨hg, hlo, hhi⟩
    have := hguard hg
    omega
  refine ⟨_, transact_loadProgram_ok (loadProgram_ok_iff.mpr ⟨hfits, hpage, rfl⟩), fun k hk => ?_, ?_,
    fun addr ha => ?_⟩
  · rw [Memory.get_putUp_inside hwf hin (by omega), List.getD_append _ _ _ _ hk]
  · rw [Memory.get_putUp_inside hwf hin (by omega), List.getD_append_right _ _ _ _ le_rfl]
    simp [Config.brkOpcode]
  · exact Memory.get_putUp_outside (by omega)

/-- Settles O54: the size is checked first, then the guard, and neither failure hands a memory back. -/
theorem loadProgramFailures : Obligations.LoadProgramFailures := by
  unfold Obligations.LoadProgramFailures
  intro start bytes g s
  have hsize : Config.memSize = 65536 := rfl
  refine ⟨fun hlarge => transact_loadProgram_error ?_, fun hfits hg hlo hhi => transact_loadProgram_error ?_⟩
  · exact if_pos (hsize ▸ hlarge)
  · subst hg
    have hpage : (true && decide (start.toNat ≤ Config.stackTop) &&
        decide (start.toNat + bytes.length ≥ Config.stackBase)) = true := by
      simp [Config.stackTop, Config.stackBase, hlo, hhi]
    exact (if_neg (by omega)).trans (if_pos hpage)

/-! ## The packed status byte -/

/-- 10_state.md R17: the byte under the layout in use, every flag at its own bit. -/
theorem packStatus_toNat (f : Flags) (b : Bool) :
    (packStatus f b).toNat = f.n.toNat * 128 + f.v.toNat * 64 + f.u.toNat * 32 + b.toNat * 16 + f.d.toNat * 8 +
      f.i.toNat * 4 + f.z.toNat * 2 + f.c.toNat := by
  have table : ∀ n v u b d i z c : Bool, (packStatus ⟨c, z, i, d, b, v, n, u⟩ b).toNat =
      n.toNat * 128 + v.toNat * 64 + u.toNat * 32 + b.toNat * 16 + d.toNat * 8 + i.toNat * 4 + z.toNat * 2 +
        c.toNat := by
    decide
  exact table f.n f.v f.u b f.d f.i f.z f.c

/-- Settles O9: the flags stand at eight different bits of the byte. -/
theorem packedStatusByte : Obligations.PackedStatusByte := ⟨packStatus_toNat, rfl, rfl⟩

end Sys2Proof.Machine
end

section
/-! FlagUpdate and the instructions that write A: the whole next state from the wide value each hands over
(40_step_and_flag_update.md section 3, 41_load_store.md to 43_arithmetic.md). -/

namespace Sys2Proof.Machine

theorem getLsbD_seven (v : Byte) : v.getLsbD 7 = decide (128 ≤ v.toNat) := by
  rw [← BitVec.msb_eq_getLsbD_last v, BitVec.msb_eq_decide]

/-- R90 in the words of the statements. -/
theorem flagUpdate_eq (f : Flags) (result : Byte) (wide : Nat) :
    flagUpdate f result wide =
      { f with b := false, n := result.getLsbD 7, z := decide (result = 0x00), c := decide (wide > 0xFF) } := by
  rw [flagUpdate, BitVec.msb_eq_getLsbD_last]
  rfl

theorem truncate8_eq_zero_iff (w : Nat) : truncate8 w = 0 ↔ w % 256 = 0 := by
  rw [← BitVec.toNat_inj, truncate8_toNat]
  rfl

theorem truncate8_byte (v : Byte) : truncate8 v.toNat = v := BitVec.ofNat_toNat 8 v

theorem updatedFrom_wroteA (op : Op) (w : Nat) (s : State) : UpdatedFrom s (wroteA op w s) w := ⟨rfl, rfl⟩

/-- STA writes no new A: the wide value `zext(A)` has A as its low byte (decision D15). -/
theorem updatedFrom_storedA (ea : Word) (s : State) : UpdatedFrom s (storedA ea s) s.a.toNat where
  result := (truncate8_byte s.a).symm
  flags := congrArg (flagUpdate s.flags · s.a.toNat) (truncate8_byte s.a).symm

/-- Settles O8: every caller leaves A and the flags by `wroteA` or `storedA`. -/
theorem flagUpdateWritesBNZC : Obligations.FlagUpdateWritesBNZC := by
  unfold Obligations.FlagUpdateWritesBNZC
  refine ⟨flagUpdate_eq, fun s => ⟨fun imm => ?_, fun ea hp => ?_, ?_, ?_, fun imm => ?_, fun ea hp => ?_⟩⟩
  · exact ⟨_, exec_ldaImm imm s, updatedFrom_wroteA ..⟩
  · exact ⟨_, exec_staAbs s hp, updatedFrom_storedA ea s⟩
  · rw [Nat.mul_comm]; exact ⟨_, exec_aslA s, updatedFrom_wroteA ..⟩
  · rw [Nat.mul_comm]; exact ⟨_, exec_rolA s, updatedFrom_wroteA ..⟩
  · exact ⟨_, exec_adcImm imm s, updatedFrom_wroteA ..⟩
  · exact ⟨_, exec_adcAbs s hp, updatedFrom_wroteA ..⟩

/-- The whole next state of an instruction that writes A, from four facts about its wide value. -/
theorem wroteA_eq (op : Op) (s : State) {w : Nat} {a : Byte} {n z c : Bool} (ha : truncate8 w = a)
    (hn : a.getLsbD 7 = n) (hz : decide (w % 256 = 0) = z) (hc : decide (w > 0xFF) = c) :
    wroteA op w s =
      { s with
        a := a
        flags := { s.flags with b := false, n := n, z := z, c := c }
        pc := s.pc + BitVec.ofNat 16 (Params.length op)
        totalCycles := s.totalCycles + BitVec.ofNat 64 (Params.cycles op)
        lastOutcome := .ok } := by
  have hzero : decide (a = 0x00) = decide (w % 256 = 0) := decide_eq_decide.mpr (ha ▸ truncate8_eq_zero_iff w)
  have hflags : flagUpdate s.flags a w = { s.flags with b := false, n := n, z := z, c := c } := by
    rw [flagUpdate_eq, hzero, hn, hz, hc]
  rw [← hflags, ← ha]
  rfl

/-- Settles O10: `zext(imm8)` is below 0x100, so C is cleared. -/
theorem ldaImmResult : Obligations.LdaImmResult := by
  unfold Obligations.LdaImmResult
  intro imm s
  have hlt := imm.isLt
  rw [exec_ldaImm, wroteA_eq .ldaImm s (truncate8_byte imm) rfl (z := decide (imm = 0x00)) (c := false)]
  · rfl
  · exact decide_eq_decide.mpr (by rw [← truncate8_eq_zero_iff, truncate8_byte])
  · exact decide_eq_false (by omega)

/-! ## Shifts -/

theorem truncate8_double (a : Byte) : truncate8 (a.toNat * 2) = a <<< 1 := by
  apply BitVec.eq_of_toNat_eq
  rw [truncate8_toNat, BitVec.toNat_shiftLeft, Nat.shiftLeft_eq]

/-- Bit 0 of a shifted byte is free for the carry. -/
theorem truncate8_double_add_carry (a : Byte) (c : Bool) :
    truncate8 (a.toNat * 2 + c.toNat) = a <<< 1 ||| (if c then 1 else 0) := by
  have hfree : a <<< 1 &&& (if c then 1 else 0 : Byte) = 0 := by
    cases c
    · simp
    · ext k hk
      cases k <;> simp [BitVec.getElem_one]
  rw [← BitVec.add_eq_or_of_and_eq_zero _ _ hfree]
  apply BitVec.eq_of_toNat_eq
  rw [truncate8_toNat, BitVec.toNat_add, BitVec.toNat_shiftLeft, Nat.shiftLeft_eq]
  cases c <;> simp

/-- Above bit 0 the carry is not seen. -/
theorem getLsbD_shifted (a : Byte) (c : Bool) {k : Nat} (h0 : 0 < k) (h8 : k < 8) :
    (a <<< 1 ||| (if c then 1 else 0 : Byte)).getLsbD k = a.getLsbD (k - 1) := by
  have hcarry : (if c then 1 else 0 : Byte).getLsbD k = false := by
    cases c <;> simp [Nat.ne_of_gt h0]
  simp only [BitVec.getLsbD_or, BitVec.getLsbD_shiftLeft, hcarry, h8, Nat.not_lt.mpr h0, decide_true, decide_false,
    Bool.not_false, Bool.true_and, Bool.or_false]

/-- The bit shifted out is the carry. -/
theorem double_add_carry_gt_iff (a : Byte) (c : Bool) : decide (a.toNat * 2 + c.toNat > 0xFF) = a.getLsbD 7 := by
  have hc := c.toNat_le
  rw [getLsbD_seven]
  exact decide_eq_decide.mpr (by omega)

/-- Settles O13: ASL is the rotate's computation with carry 0. -/
theorem aslResult : Obligations.AslResult := by
  unfold Obligations.AslResult
  intro s
  have hlt := s.a.isLt
  rw [exec_aslA, wroteA_eq .aslA s (truncate8_double s.a) (n := s.a.getLsbD 6)
    (z := decide (s.a = 0x00 ∨ s.a = 0x80)) (c := s.a.getLsbD 7)]
  · rfl
  · simp
  · exact decide_eq_decide.mpr (by bv_omega)
  · exact double_add_carry_gt_iff s.a false

theorem and_0x7F_eq_zero_iff (a : Byte) : a &&& 0x7F = 0 ↔ a.toNat % 128 = 0 := by
  rw [← BitVec.toNat_inj, BitVec.toNat_and]
  exact iff_of_eq (congrArg (· = 0) (Nat.and_two_pow_sub_one_eq_mod a.toNat 7))

/-- Settles O14: the old carry enters bit 0, which the shift left free. -/
theorem rolResult : Obligations.RolResult := by
  unfold Obligations.RolResult
  intro s
  rw [exec_rolA, wroteA_eq .rolA s (truncate8_double_add_carry s.a s.flags.c)
    (getLsbD_shifted _ _ (by decide) (by decide)) (z := decide (s.a &&& 0x7F = 0 ∧ s.flags.c = false))
    (c := s.a.getLsbD 7)]
  · rfl
  · refine decide_eq_decide.mpr ?_
    rw [and_0x7F_eq_zero_iff]
    cases s.flags.c
    · simp only [Bool.toNat_false, and_true]; omega
    · simp only [Bool.toNat_true, reduceCtorEq, and_false, iff_false]; omega
  · exact double_add_carry_gt_iff ..

/-! ## Nine rotations -/

/-- Carry and A as one value of nine bits, the carry on top (42_shift_rotate.md R106). -/
def carryA (s : State) : BitVec 9 := BitVec.cons s.flags.c s.a

theorem getLsbD_carryA (s : State) (k : Nat) :
    (carryA s).getLsbD k = if k = 8 then s.flags.c else s.a.getLsbD k :=
  BitVec.getLsbD_cons s.flags.c s.a k

theorem carryA_inj {s t : State} (h : carryA t = carryA s) : t.a = s.a ∧ t.flags.c = s.flags.c := by
  have hbit (k : Nat) := (getLsbD_carryA t k).symm.trans ((congrArg (BitVec.getLsbD · k) h).trans (getLsbD_carryA s k))
  constructor
  · refine BitVec.eq_of_getLsbD_eq fun k hk => ?_
    simpa [Nat.ne_of_lt hk] using hbit k
  · simpa using hbit 8

/-- Bit `k` of a nine-bit value rotated left `n` times comes from `n` places below, cyclically. -/
theorem getLsbD_iterate_rotateLeft (v : BitVec 9) (n k : Nat) (hk : k < 9) :
    ((BitVec.rotateLeft · 1)^[n] v).getLsbD k = v.getLsbD ((k + 8 * n) % 9) := by
  induction n generalizing k with
  | zero => simp [Nat.mod_eq_of_lt hk]
  | succ n ih =>
    rw [Function.iterate_succ_apply', BitVec.getLsbD_rotateLeft]
    by_cases h0 : k < 1
    · simp only [Nat.one_mod, h0, decide_true, cond_true]
      rw [ih _ (by omega)]
      congr 1; omega
    · simp only [Nat.one_mod, h0, hk, decide_true, decide_false, cond_false, Bool.true_and]
      rw [ih _ (by omega)]
      congr 1; omega

theorem rotateLeft_nine_times (v : BitVec 9) : (BitVec.rotateLeft · 1)^[9] v = v := by
  apply BitVec.eq_of_getLsbD_eq
  intro k hk
  rw [getLsbD_iterate_rotateLeft v 9 k hk]
  congr 1; omega

/-- One ROL rotates carry and A by one place. -/
theorem carryA_rol (s : State) :
    carryA (wroteA .rolA (s.a.toNat * 2 + s.flags.c.toNat) s) = (carryA s).rotateLeft 1 := by
  have hc : (wroteA .rolA (s.a.toNat * 2 + s.flags.c.toNat) s).flags.c = s.a.getLsbD 7 :=
    double_add_carry_gt_iff s.a s.flags.c
  have ha : (wroteA .rolA (s.a.toNat * 2 + s.flags.c.toNat) s).a = s.a <<< 1 ||| (if s.flags.c then 1 else 0) :=
    truncate8_double_add_carry s.a s.flags.c
  refine BitVec.eq_of_getLsbD_eq fun k hk => ?_
  rw [BitVec.getLsbD_rotateLeft, getLsbD_carryA, getLsbD_carryA, getLsbD_carryA, hc, ha]
  obtain rfl | rfl | ⟨h0, h8⟩ : k = 0 ∨ k = 8 ∨ (0 < k ∧ k < 8) := by omega
  · cases s.flags.c <;> simp
  · simp
  · have hne : k - 1 ≠ 8 := by omega
    simp only [getLsbD_shifted _ _ h0 h8, Nat.ne_of_lt h8, hne, hk, Nat.one_mod, Nat.not_lt.mpr h0, decide_true,
      decide_false, if_false, cond_false, Bool.true_and]

theorem execTimes_rolA (n : Nat) : ∀ s, ∃ t, execTimes .rolA n s = .next t ∧
    carryA t = (BitVec.rotateLeft · 1)^[n] (carryA s) := by
  induction n with
  | zero => exact fun s => ⟨s, rfl, rfl⟩
  | succ n ih =>
    intro s
    obtain ⟨t, hx, ht⟩ := ih (wroteA .rolA (s.a.toNat * 2 + s.flags.c.toNat) s)
    refine ⟨t, by simpa [execTimes, exec_rolA] using hx, ?_⟩
    rw [ht, carryA_rol, Function.iterate_succ_apply]

/-- Settles O16: nine rotations of nine bits are the identity. -/
theorem nineRotationsRestore : Obligations.NineRotationsRestore := by
  unfold Obligations.NineRotationsRestore
  intro s
  obtain ⟨t, hx, ht⟩ := execTimes_rolA 9 s
  rw [rotateLeft_nine_times] at ht
  exact ⟨t, hx, carryA_inj ht⟩

/-! ## Addition -/

theorem truncate8_sum (a m : Byte) (c : Bool) :
    truncate8 (a.toNat + m.toNat + c.toNat) = a + m + (if c then 1 else 0) := by
  apply BitVec.eq_of_toNat_eq
  rw [truncate8_toNat, BitVec.toNat_add, BitVec.toNat_add]
  cases c <;> simp

theorem wroteA_sum (op : Op) (m : Byte) (s : State) :
    wroteA op (s.a.toNat + m.toNat + s.flags.c.toNat) s =
      { s with
        a := s.a + m + (if s.flags.c then 1 else 0)
        flags :=
          { s.flags with
            b := false
            n := (s.a + m + (if s.flags.c then 1 else 0)).getLsbD 7
            z := decide ((s.a.toNat + m.toNat + s.flags.c.toNat) % 256 = 0)
            c := decide (s.a.toNat + m.toNat + s.flags.c.toNat > 0xFF) }
        pc := s.pc + BitVec.ofNat 16 (Params.length op)
        totalCycles := s.totalCycles + BitVec.ofNat 64 (Params.cycles op)
        lastOutcome := .ok } :=
  wroteA_eq op s (truncate8_sum s.a m s.flags.c) rfl rfl rfl

/-- Settles O17: the sum of A, the operand and the old carry, by `wroteA_sum`. -/
theorem adcImmResult : Obligations.AdcImmResult :=
  fun imm s => (exec_adcImm imm s).trans (congrArg Host.Outcome.next (wroteA_sum .adcImm imm s))

/-- Settles O18: the same sum with the byte read. -/
theorem adcAbsResult : Obligations.AdcAbsResult := by
  unfold Obligations.AdcAbsResult
  rintro ea m s hp rfl
  exact (exec_adcAbs s hp).trans (congrArg Host.Outcome.next (wroteA_sum .adcAbs _ s))

/-- The formula of R113 says that the signed sum leaves the range of a byte. -/
theorem adcOverflow_iff (old c : Bool) (a m : Byte) :
    adcOverflow true old a m (truncate8 (a.toNat + m.toNat + c.toNat)) = true ↔
      (a.toInt + m.toInt + c.toNat > 127 ∨ a.toInt + m.toInt + c.toNat < -128) := by
  have ha := a.isLt
  have hm := m.isLt
  have hc := c.toNat_le
  simp only [adcOverflow, if_true, Bool.and_eq_true, beq_iff_eq, bne_iff_ne, BitVec.msb_eq_decide, truncate8_toNat,
    decide_eq_decide, ne_eq, BitVec.toInt_eq_toNat_cond]
  split <;> split <;> omega

/-- Settles O20: V is overwritten before A and the other flags, so these do not depend on it. -/
theorem adcOverflowUnderSetsV : Obligations.AdcOverflowUnderSetsV :=
  fun m s => ⟨adcOverflow_iff s.flags.v s.flags.c s.a m, rfl, fun _ => rfl⟩

end Sys2Proof.Machine
end

section
/-! STA, CLC, BRK and RTS: the whole next state, and the failures of the instructions that have one
(41_load_store.md, 43_arithmetic.md, 44_flag_ops.md, 45_control_system.md). -/

namespace Sys2Proof.Machine

/-- Settles O12: the guard of the write closes the stack page. -/
theorem staAbsStackPageFails : Obligations.StaAbsStackPageFails :=
  fun ea _ hp => exec_of_execFails (.inr (.inr (.inr ⟨ea, .inl rfl, hp, rfl⟩)))

/-- Settles O19: the guard of the read closes the stack page (decision D13). -/
theorem adcAbsStackPageFails : Obligations.AdcAbsStackPageFails :=
  fun ea _ hp => exec_of_execFails (.inr (.inr (.inr ⟨ea, .inr rfl, hp, rfl⟩)))

/-- Settles O23: fewer than three slots are free. -/
theorem brkWithoutSpaceFails : Obligations.BrkWithoutSpaceFails :=
  fun _ hsp => exec_of_execFails (.inl ⟨rfl, hsp, rfl⟩)

/-- Settles O25: no byte, or one byte, is on the stack. -/
theorem rtsPopFails : Obligations.RtsPopFails :=
  fun _ => ⟨fun hsp => exec_of_execFails (.inr (.inl ⟨rfl, hsp, rfl⟩)),
    fun hsp => exec_of_execFails (.inr (.inr (.inl ⟨rfl, hsp, rfl⟩)))⟩

/-- Settles O21: CLC has one path, and it writes C and PC. -/
theorem clcResult : Obligations.ClcResult := exec_clc

/-- Settles O11: one byte is put, and `zext(A)` is below 0x100. -/
theorem staAbsResult : Obligations.StaAbsResult := by
  unfold Obligations.StaAbsResult
  intro ea s hwf hp
  have hlt := s.a.isLt
  refine ⟨_, exec_staAbs s hp, Memory.get_put_same _ s.a hwf, fun addr hne => Memory.get_put_ne s.mem s.a hne, ?_⟩
  have hflags : flagUpdate s.flags s.a s.a.toNat =
      { s.flags with b := false, n := s.a.getLsbD 7, z := decide (s.a = 0x00), c := false } := by
    rw [flagUpdate_eq, decide_eq_false (by omega)]
  rw [← hflags]
  rfl

/-! ## The trap -/

/-- The three bytes of a BRK frame, from SP down. -/
theorem get_trapped {s : State} (hwf : s.mem.wf = true) (hsp : 2 ≤ s.sp.toNat) :
    (trapped s).mem.get (stackAddr s.sp) = hi8 (s.pc + 2) ∧
    (trapped s).mem.get (stackAddr s.sp - 1) = lo8 (s.pc + 2) ∧
    (trapped s).mem.get (stackAddr s.sp - 2) = packStatus s.flags true :=
  have hframe {k : Nat} (hk : k < 3) := get_pushed (bytes := trapFrame s) hwf (Nat.succ_le_succ hsp) hk
  ⟨hframe (k := 0) (by decide), hframe (k := 1) (by decide), hframe (k := 2) (by decide)⟩

theorem get_trapped_outside {s : State} (hsp : 2 ≤ s.sp.toNat) {addr : Nat}
    (h : stackAddr s.sp < addr ∨ addr + 3 ≤ stackAddr s.sp) : (trapped s).mem.get addr = s.mem.get addr :=
  Memory.get_putDown_outside (by rw [trapFrame_length, stackAddr_eq]; omega) h

/-- Settles O22: the frame is one descending run of three bytes. -/
theorem brkTakesTrap : Obligations.BrkTakesTrap := by
  unfold Obligations.BrkTakesTrap
  intro s hwf hsp
  obtain ⟨hhi, hlo, hstatus⟩ := get_trapped hwf hsp
  exact ⟨_, exec_brk hsp, hhi, hlo, hstatus, fun addr _ _ _ => get_trapped_outside hsp (by omega), rfl⟩

theorem trapped_sp_toNat {s : State} (hsp : 3 ≤ s.sp.toNat) : (trapped s).sp.toNat = s.sp.toNat - 3 := by
  have hlt := s.sp.isLt
  have h : (trapped s).sp = s.sp - 3 := rfl
  rw [h]
  bv_omega

/-- Settles O24: the popped bytes are joined with the second one on top. -/
theorem rtsResult : Obligations.RtsResult := by
  unfold Obligations.RtsResult
  rintro s lo hi hsp rfl rfl
  rw [exec_rts hsp, returned, ← joinBytes_toNat, BitVec.ofNat_toNat, BitVec.setWidth_eq]
  rfl

/-- Settles O26: SP - 3 is just below the status byte, so the pop takes it and the low byte of PC + 2; from SP = 2 it is
the empty position. -/
theorem rtsAfterBrkPopsStatus : Obligations.RtsAfterBrkPopsStatus := by
  unfold Obligations.RtsAfterBrkPopsStatus
  intro s hwf
  constructor
  · intro hsp
    have hlt := s.sp.isLt
    have hsp' := trapped_sp_toNat hsp
    obtain ⟨hhi, hlo, hstatus⟩ := get_trapped hwf (by omega : 2 ≤ s.sp.toNat)
    have hpc : (returned (trapped s)).pc = joinBytes (lo8 (s.pc + 2)) (packStatus s.flags true) := by
      have hsecond : stackAddr (trapped s).sp + 2 = stackAddr s.sp - 1 := by rw [stackAddr_eq, stackAddr_eq]; omega
      have hfirst : stackAddr (trapped s).sp + 1 = stackAddr s.sp - 2 := by rw [stackAddr_eq, stackAddr_eq]; omega
      rw [← hlo, ← hstatus, ← hsecond, ← hfirst]
      rfl
    have hspEnd : (returned (trapped s)).sp = s.sp - 1 := by
      have h : (returned (trapped s)).sp = s.sp - 3 + 2 := rfl
      rw [h]
      bv_omega
    exact ⟨_, _, exec_brk (by omega), exec_rts (by omega), rfl, hpc, hspEnd, rfl, hhi⟩
  · intro hsp
    have hempty : (trapped s).sp = 0xFF := by
      have h : (trapped s).sp = s.sp - 3 := rfl
      rw [h, hsp]
      rfl
    exact ⟨_, _, exec_brk (by simp [hsp]), hempty, exec_of_execFails (.inr (.inl ⟨rfl, hempty, rfl⟩)), rfl⟩

/-- 60_exceptions.md section 3: BRKs in a row, each with room for its frame. -/
theorem execTimes_brk (k : Nat) : ∀ s : State, 3 * k ≤ s.sp.toNat →
    ∃ t, execTimes .brk k s = .next t ∧ t.sp.toNat = s.sp.toNat - 3 * k ∧ (1 ≤ k → t.lastOutcome = .ok) := by
  induction k with
  | zero => exact fun s _ => ⟨s, rfl, rfl, nofun⟩
  | succ k ih =>
    intro s hroom
    have hsp := trapped_sp_toNat (by omega : 3 ≤ s.sp.toNat)
    obtain ⟨t, hx, ht, hok⟩ := ih (trapped s) (by omega)
    refine ⟨t, by simpa [execTimes, exec_brk (by omega : 2 ≤ s.sp.toNat)] using hx, by omega, fun _ => ?_⟩
    cases k with
    | zero => cases hx; rfl
    | succ k => exact hok (Nat.succ_pos k)

/-- Settles O27: 85 frames of three bytes fill the 255 positions above SP = 0, where no fourth byte fits. -/
theorem brkNestsEightyFiveDeep : Obligations.BrkNestsEightyFiveDeep := by
  unfold Obligations.BrkNestsEightyFiveDeep
  intro s hempty
  have hsp : s.sp.toNat = 255 := by simp [hempty]
  constructor
  · intro k hk hk'
    obtain ⟨t, hx, ht, hok⟩ := execTimes_brk k s (by omega)
    exact ⟨t, hx, hok hk, by omega⟩
  · obtain ⟨t, hx, ht, -⟩ := execTimes_brk 85 s (by omega)
    exact ⟨t, _, hx, exec_of_execFails (.inl ⟨rfl, by omega, rfl⟩), rfl⟩

/-! ## Errors and frames -/

theorem Completes.not_execError {i : Instr} {s t : State} {k : MemError} (h : Completes i s t) :
    t.lastOutcome ≠ .execError k := by
  rw [h.noFault]
  exact nofun

/-- Settles O35: `ExecFails` is the table, and an instruction that completes records no error. -/
theorem executeErrorsExactlyWhere : Obligations.ExecuteErrorsExactlyWhere := by
  unfold Obligations.ExecuteErrorsExactlyWhere
  intro i s t k hx
  change t.lastOutcome = .execError k ↔ ExecFails i s k
  constructor
  · intro hk
    obtain hc | ⟨k', hk', rfl⟩ := exec_next_cases hx
    · exact absurd hk hc.not_execError
    · cases hk
      exact hk'
  · intro hk
    cases hx.symm.trans (exec_of_execFails hk)
    rfl

theorem not_execFails_clc (s : State) (k : MemError) : ¬ ExecFails .clc s k := by
  simp [ExecFails]

/-- Settles O28: of the shapes of these instructions one writes A and the flags, one C, one SP. -/
theorem nonStoringFrame : Obligations.NonStoringFrame := by
  unfold Obligations.NonStoringFrame
  intro i s t hop hx
  obtain ⟨hX, hY, hV, hD, hI, hU, hH⟩ := unwired_eq_iff.mp (exec_unwired hx)
  suffices (∀ addr, t.mem.get addr = s.mem.get addr) ∧ (i ≠ .rts → t.sp = s.sp) ∧ (i = .clc ∨ i = .rts → t.a = s.a) ∧
      (i = .rts → t.flags = s.flags) ∧ (i = .clc → t.flags = { s.flags with c := false }) by
    obtain ⟨hM, hS, hA, hR, hC⟩ := this
    exact ⟨hM, hX, hY, hH, hI, hD, hV, hU, hS, hA, hR, hC⟩
  obtain hc | ⟨k, hk, rfl⟩ := exec_next_cases hx
  · cases hc with
    | wroteA w hw =>
      have hclc : i ≠ .clc := by rintro rfl; simp [Instr.op] at hw
      have hrts : i ≠ .rts := by rintro rfl; simp [Instr.op] at hw
      exact ⟨fun _ => rfl, fun _ => rfl, fun h => (h.elim hclc hrts).elim, fun h => absurd h hrts,
        fun h => absurd h hclc⟩
    | clearedC => exact ⟨fun _ => rfl, fun _ => rfl, fun _ => rfl, nofun, fun _ => rfl⟩
    | returned => exact ⟨fun _ => rfl, fun h => absurd rfl h, fun _ => rfl, fun _ => rfl, nofun⟩
    | storedA | trapped => simp [Instr.op] at hop
  · refine ⟨fun _ => rfl, fun _ => rfl, fun _ => rfl, fun _ => rfl, ?_⟩
    rintro rfl
    exact absurd hk (not_execFails_clc s k)

/-- Settles O29: STA puts one byte, BRK pushes three. -/
theorem storingFrame : Obligations.StoringFrame := by
  unfold Obligations.StoringFrame
  intro s t
  constructor
  · intro ea hx
    obtain ⟨hX, hY, hV, hD, hI, hU, hH⟩ := unwired_eq_iff.mp (exec_unwired hx)
    suffices (∀ addr, addr ≠ absAddr ea → t.mem.get addr = s.mem.get addr) ∧ t.a = s.a ∧ t.sp = s.sp by
      obtain ⟨hM, hA, hS⟩ := this
      exact ⟨hM, hA, hX, hY, hS, hH, hI, hD, hV, hU⟩
    obtain hc | ⟨k, -, rfl⟩ := exec_next_cases hx
    · cases hc with
      | wroteA w hw => simp [Instr.op] at hw
      | storedA => exact ⟨fun _ hne => Memory.get_put_ne s.mem s.a hne, rfl, rfl⟩
    · exact ⟨fun _ _ => rfl, rfl, rfl⟩
  · intro hx
    obtain hc | ⟨k, -, rfl⟩ := exec_next_cases hx
    · cases hc with
      | wroteA w hw => simp [Instr.op] at hw
      | trapped hsp => exact ⟨fun _ ha => get_trapped_outside hsp ha, rfl, rfl, rfl, rfl, rfl⟩
    · exact ⟨fun _ _ => rfl, rfl, rfl, rfl, rfl, rfl⟩

end Sys2Proof.Machine
end

section
/-! The fetch stage: what it answers, said once for each of its outcomes (40_step_and_flag_update.md section 1). -/

namespace Sys2Proof.Machine

theorem fetch_in_stackPage (m : Memory) {pc : Word} (h : InStackPage pc.toNat) :
    fetch m pc = .error (.fetchError .outOfBounds) := by
  have hr : readByte m pc.toNat true = .error .outOfBounds :=
    readByte_error_iff.mpr ⟨not_admitted_guarded_stackPage h, rfl⟩
  simp [fetch, Params.guard, hr]

theorem readByte_opcode (m : Memory) {pc : Word} (h : ¬ InStackPage pc.toNat) :
    readByte m pc.toNat true = .ok (m.get pc.toNat) :=
  readByte_ok_iff.mpr ⟨admitted_iff.mpr ⟨pc.isLt, fun hp => h hp.2⟩, rfl⟩

theorem fetch_unknown {m : Memory} {pc : Word} (h : ¬ InStackPage pc.toNat) (hl : lookupOp (m.get pc.toNat) = none) :
    fetch m pc = .error (.unknownOpcode (m.get pc.toNat)) := by
  simp [fetch, Params.guard, readByte_opcode m h, hl]

theorem fetch_operands {m : Memory} {pc : Word} {op : Op} {operands : List Byte} (h : ¬ InStackPage pc.toNat)
    (hl : lookupOp (m.get pc.toNat) = some op)
    (hr : readBytes m (pc.toNat + 1) (Params.operandCount op) true = .ok operands) :
    fetch m pc = .ok (assemble op operands) := by
  simp [fetch, Params.guard, readByte_opcode m h, hl, hr]

theorem fetch_operands_error {m : Memory} {pc : Word} {op : Op} {k : MemError} (h : ¬ InStackPage pc.toNat)
    (hl : lookupOp (m.get pc.toNat) = some op)
    (hr : readBytes m (pc.toNat + 1) (Params.operandCount op) true = .error k) :
    fetch m pc = .error (.fetchError k) := by
  simp [fetch, Params.guard, readByte_opcode m h, hl, hr]

/-- Where the operand read fails: at the addresses right below the stack page and at the end of the space. -/
theorem operandRead_error_iff {m : Memory} {pc : Word} {n : Nat} (h : ¬ InStackPage pc.toNat) (hn : n ≤ 2) :
    readBytes m (pc.toNat + 1) n true = .error .outOfBounds ↔
      (n = 1 ∧ (pc.toNat = 0x00FF ∨ pc.toNat = 0xFFFF)) ∨
      (n = 2 ∧ (pc.toNat = 0x00FE ∨ pc.toNat = 0x00FF ∨ pc.toNat = 0xFFFE ∨ pc.toNat = 0xFFFF)) := by
  have hlt := pc.isLt
  have hclosed (j : Nat) : admitted (pc.toNat + 1 + j) true = false ↔
      65536 ≤ pc.toNat + 1 + j ∨ InStackPage (pc.toNat + 1 + j) := by
    rw [← Bool.not_eq_true, admitted_iff]
    simp only [true_and]
    omega
  simp only [readBytes_error_iff, hclosed, and_true]
  constructor
  · rintro ⟨j, hj, hc⟩
    omega
  · rintro (⟨rfl, hpc⟩ | ⟨rfl, hpc⟩)
    · exact ⟨0, by omega, by omega⟩
    · by_cases h1 : pc.toNat = 0x00FE ∨ pc.toNat = 0xFFFE
      · exact ⟨1, by omega, by omega⟩
      · exact ⟨0, by omega, by omega⟩

theorem operandCount_le (op : Op) : Params.operandCount op ≤ 2 := by cases op <;> decide

theorem fetch_error_iff_operandRead {m : Memory} {pc : Word} {op : Op} (hp : ¬ InStackPage pc.toNat)
    (hl : lookupOp (m.get pc.toNat) = some op) :
    fetch m pc = .error (.fetchError .outOfBounds) ↔
      readBytes m (pc.toNat + 1) (Params.operandCount op) true = .error .outOfBounds := by
  cases hr : readBytes m (pc.toNat + 1) (Params.operandCount op) true with
  | ok operands => simp [fetch_operands hp hl hr]
  | error k => simp [fetch_operands_error hp hl hr]

/-- Settles O31: the opcode's address, the opcode map and the operand read decide in this order. -/
theorem fetchFailsExactlyWhere : Obligations.FetchFailsExactlyWhere := by
  unfold Obligations.FetchFailsExactlyWhere
  intro m pc
  refine ⟨fetch_in_stackPage m, fetch_unknown, fun op hp hl => ⟨?_, ?_⟩⟩
  · rw [fetch_error_iff_operandRead hp hl, operandRead_error_iff hp (operandCount_le op), Params.length]
    bv_omega
  · cases hr : readBytes m (pc.toNat + 1) (Params.operandCount op) true with
    | ok operands => exact .inl ⟨_, fetch_operands hp hl hr, assemble_op op operands⟩
    | error k =>
      obtain ⟨-, rfl⟩ := readBytes_error_iff.mp hr
      exact .inr (fetch_operands_error hp hl hr)

/-- The bytes of an instruction at PC, read with the fetch guard, are fetched as that instruction. -/
theorem fetch_of_encoded {m : Memory} {pc : Word} {i : Instr}
    (h : readBytes m pc.toNat (encode i).length true = .ok (encode i)) : fetch m pc = .ok i := by
  obtain ⟨ha, hm⟩ := readBytes_ok_iff.mp h
  obtain ⟨-, hget⟩ := map_range_eq_iff.mp hm
  have hlen : (encode i).length = Params.operandCount i.op + 1 := encode_length i
  have hp : ¬ InStackPage pc.toNat := fun hp => (admitted_iff_le.mp (ha 0 (by omega))).2 ⟨rfl, hp⟩
  have hopcode : m.get pc.toNat = Params.opcode i.op := hget 0 (by omega)
  have hoperands : readBytes m (pc.toNat + 1) (Params.operandCount i.op) true = .ok (operandBytes i) := by
    refine readBytes_ok_iff.mpr ⟨fun k hk => ?_, map_range_eq_iff.mpr ⟨operandBytes_length i, fun k hk => ?_⟩⟩
    · rw [Nat.add_assoc, Nat.add_comm 1]; exact ha (k + 1) (by omega)
    · rw [Nat.add_assoc, Nat.add_comm 1]; exact hget (k + 1) (by omega)
  rw [fetch_operands hp (hopcode ▸ lookupOp_opcode i.op) hoperands, assemble_operandBytes]

/-- Settles O30: those bytes are what the fetch answers. -/
theorem stepRunsDecodedInstruction : Obligations.StepRunsDecodedInstruction :=
  fun _ _ h => step_of_fetch (fetch_of_encoded h)

/-- Settles O43: after the store the opcode byte at the address is A. -/
theorem storeSeenByNextFetch : Obligations.StoreSeenByNextFetch := by
  unfold Obligations.StoreSeenByNextFetch
  intro ea pc s hwf hp hpc
  have hget : (storedA ea s).mem.get pc.toNat = s.a := hpc ▸ Memory.get_put_same _ s.a hwf
  rw [← hpc] at hp
  refine ⟨_, exec_staAbs s (hpc ▸ hp), fun hl => ?_, fun op hl => ⟨fun operands hr => ⟨?_, assemble_op op operands⟩,
    fun k hr => ?_⟩⟩
  · rw [fetch_unknown hp (hget ▸ hl), hget]
  · exact fetch_operands hp (hget ▸ hl) hr
  · exact fetch_operands_error hp (hget ▸ hl) hr

/-! ## Placed words -/

theorem placeBytes_eq_putUp {bs : List Byte} : ∀ {m : Memory} {addr : Nat}, addr + bs.length ≤ Config.memSize →
    placeBytes m addr bs = m.putUp addr bs := by
  induction bs with
  | nil => intros; rfl
  | cons b bs ih =>
    intro m addr h
    simp only [List.length_cons] at h
    rw [placeBytes, if_pos (by omega), ih (by omega)]
    rfl

theorem decodeTableWord_eq_some {nbits w : Nat} {i : Instr} (h : decodeTableWord nbits w = some i) :
    ∃ rest, tableBytes nbits w = encode i ++ rest := by
  unfold decodeTableWord at h
  cases hd : decode (tableBytes nbits w) with
  | error e => simp [hd] at h
  | ok r =>
    obtain rfl : r.1 = i := by simpa [hd] using h
    exact ⟨r.2, encodeOfDecode _ _ _ hd⟩

/-- A placed run that a fetch may read is read back, also only its beginning. -/
theorem readBytes_placed {m : Memory} {addr : Nat} {l rest : List Byte} (hwf : m.wf = true)
    (hfits : addr + (l ++ rest).length ≤ Config.memSize) (ha : ∀ k, k < l.length → admitted (addr + k) true = true) :
    readBytes (placeBytes m addr (l ++ rest)) addr l.length true = .ok l := by
  refine readBytes_ok_iff.mpr ⟨ha, map_range_eq_iff.mpr ⟨rfl, fun k hk => ?_⟩⟩
  rw [placeBytes_eq_putUp hfits, Memory.get_putUp_inside hwf hfits (by simp; omega), List.getD_append _ _ _ _ hk]

/-- Settles O49: the placed bytes begin with the instruction's own, and all three can be fetched. -/
theorem placedWordRunsNext : Obligations.PlacedWordRunsNext := by
  unfold Obligations.PlacedWordRunsNext
  intro s nbits w i hwf hd hpc
  obtain ⟨rest, hbytes⟩ := decodeTableWord_eq_some hd
  have hlen : (encode i ++ rest).length = 3 := hbytes ▸ rfl
  have hi : (encode i).length ≤ 3 := hlen ▸ by simp
  have hsize : Config.memSize = 65536 := rfl
  refine stepRunsDecodedInstruction i _ ?_
  change readBytes (placeBytes s.mem s.pc.toNat (tableBytes nbits w)) s.pc.toNat _ true = _
  rw [hbytes]
  exact readBytes_placed hwf (by omega) fun k hk => admitted_iff.mpr ⟨by omega, by omega⟩

end Sys2Proof.Machine
end

section
/-! What a step leaves: the cost, PC, B, the memory; the failing step; and what no step reads
(40_step_and_flag_update.md section 2, 60_exceptions.md section 1, 70_reset_and_hazards.md section 3). -/

namespace Sys2Proof.Machine

/-- Settles O34: neither a completed nor a failed execute stops the machine, and a failing fetch is a next state. -/
theorem everyStepAnswersNext : Obligations.EveryStepAnswersNext := by
  unfold Obligations.EveryStepAnswersNext
  have hexec (i : Instr) (s : State) : ∃ t, exec i s = .next t := by
    obtain ⟨t, -, hx⟩ | ⟨k, hk⟩ := exec_cases i s
    · exact ⟨t, hx⟩
    · exact ⟨_, exec_of_execFails hk⟩
  refine ⟨fun s => ?_, hexec⟩
  cases hf : fetch s.mem s.pc with
  | error e => exact ⟨failFetch e s, by simp [step, hf]⟩
  | ok i => exact step_of_fetch hf ▸ hexec i s

theorem step_of_fetch_error {s : State} {e : FetchFailure} (h : fetch s.mem s.pc = .error e) :
    step s = .next (failFetch e s) := by
  simp [step, h]

/-- Settles O32: the record is no input of the fetch. -/
theorem fetchFailureChangesNothing : Obligations.FetchFailureChangesNothing :=
  fun e s h => ⟨step_of_fetch_error h, step_of_fetch_error (s := failFetch e s) h⟩

theorem Completes.totalCycles {i : Instr} {s t : State} (h : Completes i s t) :
    t.totalCycles = s.totalCycles + BitVec.ofNat 64 (Params.cycles i.op) := by
  cases h <;> rfl

/-- 40_step_and_flag_update.md R83, R84: the cost is charged before the effect, so a failing one pays it too. -/
theorem exec_totalCycles {i : Instr} {s t : State} (h : exec i s = .next t) :
    t.totalCycles = s.totalCycles + BitVec.ofNat 64 (Params.cycles i.op) := by
  obtain hc | ⟨k, -, rfl⟩ := exec_next_cases h
  · exact hc.totalCycles
  · rfl

/-- Settles O36: the fetch charges nothing, and every execute its declared cost. -/
theorem cyclesChargedOncePerExecute : Obligations.CyclesChargedOncePerExecute := by
  unfold Obligations.CyclesChargedOncePerExecute
  intro s t h
  constructor
  · intro e hf
    cases (step_of_fetch_error hf).symm.trans h
    rfl
  · intro i hf
    rw [exec_totalCycles ((step_of_fetch hf).symm.trans h)]
    cases i <;> rfl

/-- A step that returned an error kept everything but the cycle counter and the record. -/
theorem step_failed_eq {s t : State} (h : StepsTo s t) (bad : ¬ t.noFault) :
    t = { s with totalCycles := t.totalCycles, lastOutcome := t.lastOutcome } := by
  obtain ⟨e, rfl⟩ | ⟨op, k, rfl⟩ := step_failed h bad <;> rfl

/-- The shapes but that of RTS advance PC by the length of the instruction. -/
theorem Completes.pc {i : Instr} {s t : State} (h : Completes i s t) (hr : i ≠ .rts) :
    t.pc = s.pc + BitVec.ofNat 16 (Params.length i.op) := by
  cases h with
  | wroteA | clearedC | storedA | trapped => rfl
  | returned => exact absurd rfl hr

/-- Settles O37: three groups of lengths, and the popped address. -/
theorem programCounterUpdate : Obligations.ProgramCounterUpdate := by
  unfold Obligations.ProgramCounterUpdate
  intro s t h
  refine ⟨fun bad => (congrArg State.pc (step_failed_eq h bad) :), fun ok i hf => ?_⟩
  have hc := step_completed h ok hf
  have hadvance {ops : List Op} {n : Nat} (hn : ∀ op ∈ ops, op ≠ .rts ∧ Params.length op = n) (hop : i.op ∈ ops) :
      t.pc = s.pc + BitVec.ofNat 16 n := by
    obtain ⟨hrts, hlen⟩ := hn i.op hop
    rw [← hlen]
    exact hc.pc (by rintro rfl; exact hrts rfl)
  refine ⟨hadvance (by decide), hadvance (by decide), hadvance (by decide), ?_⟩
  · rintro rfl
    cases hc with
    | wroteA w hw => simp [Instr.op] at hw
    | returned => exact joinBytes_toNat ..

/-- Settles O38: a changed byte is the one STA put or one of the three BRK pushed. -/
theorem onlyStaAndBrkWriteMemory : Obligations.OnlyStaAndBrkWriteMemory := by
  unfold Obligations.OnlyStaAndBrkWriteMemory
  intro s t addr h hne
  obtain ⟨e, -, rfl⟩ | ⟨i, hf, hc⟩ | ⟨i, k, -, -, rfl⟩ := step_next_cases h
  · exact absurd rfl hne
  · cases hc with
    | wroteA | clearedC | returned => exact absurd rfl hne
    | @storedA ea _ hp =>
      obtain rfl : addr = absAddr ea := by_contra fun hout => hne (Memory.get_put_ne s.mem s.a hout)
      exact .inl ⟨ea, hf, rfl, hp, rfl⟩
    | trapped hsp =>
      have hin : addr ≤ stackAddr s.sp ∧ stackAddr s.sp < addr + 3 := by
        by_contra hout
        exact hne (get_trapped_outside hsp (by omega))
      have hlt := s.sp.isLt
      have hstack : InStackPage addr := by
        rw [stackAddr_eq] at hin
        exact ⟨by omega, by omega⟩
      exact .inr ⟨hf, hstack, hin.1, hin.2, rfl⟩
  · exact absurd rfl hne

/-- Settles O39: FlagUpdate clears B, the trap sets it, and CLC and RTS do not call either. -/
theorem breakFlagAfterStep : Obligations.BreakFlagAfterStep := by
  unfold Obligations.BreakFlagAfterStep
  intro s t h
  refine ⟨fun bad => (congrArg State.flags (step_failed_eq h bad) :), fun ok i hf => ?_⟩
  cases step_completed h ok hf with
  | wroteA w hw =>
    refine ⟨?_, ?_, fun _ _ _ => rfl⟩
    · rintro (rfl | rfl) <;> simp [Instr.op] at hw
    · rintro rfl
      simp [Instr.op] at hw
  | storedA => exact ⟨nofun, nofun, fun _ _ _ => rfl⟩
  | clearedC => exact ⟨fun _ => rfl, nofun, fun h => absurd rfl h⟩
  | returned => exact ⟨fun _ => rfl, nofun, fun _ h => absurd rfl h⟩
  | trapped => exact ⟨nofun, fun _ => rfl, fun _ _ h => absurd rfl h⟩

/-! ## What no step reads -/

/-- The three fields no rule of the core reads, overwritten. -/
def State.relabel (s : State) (n : Count) (h : Bool) (o : StepOutcome) : State :=
  { s with totalCycles := n, halted := h, lastOutcome := o }

theorem map_eq_map_map {α : Type} {r : Except MemError α} {f g : α → State} {e : State → State}
    (h : ∀ x, f x = e (g x)) : r.map f = (r.map g).map e := by
  cases r <;> simp [Except.map, h]

theorem effectStaAbs_relabel (ea : Word) (s : State) (n : Count) (h : Bool) (o : StepOutcome) :
    effectStaAbs ea (s.relabel n h o) = (effectStaAbs ea s).map (·.relabel n h o) := by
  unfold effectStaAbs writeAbs
  change ((writeByte s.mem (absAddr ea) s.a _).map _).map _ = _
  cases writeByte s.mem (absAddr ea) s.a (Params.guard .dataWrite) <;> rfl

/-- The effects read none of the three and carry them through. -/
theorem effectOf_relabel (i : Instr) (s : State) (n : Count) (h : Bool) (o : StepOutcome) :
    effectOf i (s.relabel n h o) = (effectOf i s).map (·.relabel n h o) := by
  cases i with
  | brk => exact map_eq_map_map (r := stackPush s.mem s.sp (trapFrame s)) fun _ => rfl
  | rts => exact map_eq_map_map (r := stackPop s.mem s.sp 2) fun _ => rfl
  | adcAbs ea => exact map_eq_map_map (r := readAbs ea s) fun _ => rfl
  | staAbs ea => exact effectStaAbs_relabel ea s n h o
  | aslA | clc | rolA | adcImm imm | ldaImm imm => rfl

theorem exec_relabel {i : Instr} {s t : State} (n : Count) (h : Bool) (o : StepOutcome) (hx : exec i s = .next t) :
    exec i (s.relabel n h o) = .next (t.relabel (n + BitVec.ofNat 64 (Params.cycles i.op)) h t.lastOutcome) := by
  have heffect := effectOf_relabel i (charge i.op s) (n + BitVec.ofNat 64 (Params.cycles i.op)) h o
  rw [exec_eq_execute]
  obtain ⟨u, hu, rfl⟩ | ⟨k, hk, rfl⟩ := exec_next hx
  · rw [hu] at heffect
    exact execute_of_ok (s := s.relabel n h o) heffect
  · rw [hk] at heffect
    exact execute_of_error (s := s.relabel n h o) heffect

/-- Settles O42: the fetch reads memory and PC, and an instruction adds its own cost to any counter. -/
theorem stepIgnoresCyclesHaltedOutcome : Obligations.StepIgnoresCyclesHaltedOutcome := by
  unfold Obligations.StepIgnoresCyclesHaltedOutcome
  intro s t n h o hst
  obtain ⟨e, hf, rfl⟩ | ⟨i, hf, hx⟩ := step_next hst
  · have hcost : n + ((failFetch e s).totalCycles - s.totalCycles) = n := by simp
    rw [hcost]
    exact step_of_fetch_error (s := s.relabel n h o) hf
  · have hcost : n + (t.totalCycles - s.totalCycles) = n + BitVec.ofNat 64 (Params.cycles i.op) := by
      rw [exec_totalCycles hx, add_sub_cancel_left]
    rw [hcost]
    exact (step_of_fetch (s := s.relabel n h o) hf).trans (exec_relabel n h o hx)

/-! ## Fail-stuck -/

/-- After an error the next step starts from a state that differs in what no step reads, so it does the same again. -/
theorem step_failed_repeats {s t : State} (h : StepsTo s t) (bad : ¬ t.noFault) :
    ∃ n, StepsTo t { t with totalCycles := n } := by
  have hagain := stepIgnoresCyclesHaltedOutcome s t t.totalCycles t.halted t.lastOutcome h
  have hstart : { s with totalCycles := t.totalCycles, halted := t.halted, lastOutcome := t.lastOutcome } = t := by
    rw [step_keeps_halted h]
    exact (step_failed_eq h bad).symm
  rw [hstart] at hagain
  exact ⟨_, hagain⟩

theorem failStuck_of_step_failed {s t : State} (h : StepsTo s t) (bad : ¬ t.noFault) : FailStuck s := by
  intro n
  induction n generalizing s t with
  | zero => exact .none s
  | succ n ih =>
    obtain ⟨c, hagain⟩ := step_failed_repeats h bad
    exact .more h bad (ih hagain bad)

/-- Settles O33, by the repetition of the failing step. -/
theorem failingStepLeavesCoreStuck : Obligations.FailingStepLeavesCoreStuck := by
  unfold Obligations.FailingStepLeavesCoreStuck
  intro s t h bad
  obtain ⟨n, hagain⟩ := step_failed_repeats h bad
  refine ⟨step_failed_eq h bad, fun u hu => ?_, failStuck_of_step_failed h bad, failStuck_of_step_failed hagain bad⟩
  cases hagain.symm.trans hu
  exact ⟨rfl, (congrArg State.pc (step_failed_eq h bad) :)⟩

end Sys2Proof.Machine
end

section
/-! Where the host's loops end (50_host_interface.md section 2, R147 to R149). -/

namespace Sys2Proof.Machine

/-- A loop ends at a boundary, after whole rounds: where `halted` is set or the host's list ends. -/
def EndsAtBoundary (stop : State → Bool) (host : List (List Transaction)) (s : State) (k : Nat) : Prop :=
  hostLoop stop host s = afterRounds (host.take k) s ∧ (k < host.length → (afterRounds (host.take k) s).halted = true)

/-- A loop ends inside a round, right after the step of round `k`. -/
def EndsAfterStep (stop : State → Bool) (host : List (List Transaction)) (s : State) (k : Nat) : Prop :=
  hostLoop stop host s = afterSteps 1 (afterRounds (host.take k) s) ∧ k < host.length ∧
    (afterRounds (host.take k) s).halted = false ∧ stop (afterSteps 1 (afterRounds (host.take k) s)) = true

/-- Round `j` of a loop is begun and not ended by its step. -/
def PassesRound (stop : State → Bool) (host : List (List Transaction)) (s : State) (j : Nat) : Prop :=
  (afterRounds (host.take j) s).halted = false ∧ stop (afterSteps 1 (afterRounds (host.take j) s)) = false

/-- R147, R148: every loop passes some rounds and then ends in one of the two ways. -/
theorem hostLoop_ends (stop : State → Bool) (host : List (List Transaction)) (s : State) :
    ∃ k, k ≤ host.length ∧ (∀ j, j < k → PassesRound stop host s j) ∧
      (EndsAtBoundary stop host s k ∨ EndsAfterStep stop host s k) := by
  induction host generalizing s with
  | nil => exact ⟨0, le_rfl, nofun, .inl ⟨rfl, nofun⟩⟩
  | cons between rest ih =>
    cases hh : s.halted with
    | true => exact ⟨0, Nat.zero_le _, nofun, .inl ⟨hostLoop_of_halted stop _ hh, fun _ => hh⟩⟩
    | false =>
      cases hs : stop (transact .step s).2 with
      | true => exact ⟨0, Nat.zero_le _, nofun, .inr ⟨hostLoop_stop between rest hh hs, Nat.succ_pos _, hh, hs⟩⟩
      | false =>
        obtain ⟨k, hk, hpass, hend⟩ := ih (transactAll between (transact .step s).2)
        have hround := hostLoop_round between rest hh hs
        refine ⟨k + 1, Nat.succ_le_succ hk, fun j hj => ?_, ?_⟩
        · cases j with
          | zero => exact ⟨hh, hs⟩
          | succ j => exact hpass j (Nat.lt_of_succ_lt_succ hj)
        · obtain ⟨he, hhalt⟩ | ⟨he, hlt, hrest⟩ := hend
          · exact .inl ⟨hround.trans he, fun hlt => hhalt (Nat.lt_of_succ_lt_succ hlt)⟩
          · exact .inr ⟨hround.trans he, Nat.succ_lt_succ hlt, hrest⟩

/-- The run loop looks at `halted` only, so it ends at a boundary. -/
theorem runLoop_ends (host : List (List Transaction)) (s : State) :
    ∃ k, k ≤ host.length ∧ (∀ j, j < k → PassesRound (fun _ => false) host s j) ∧
      EndsAtBoundary (fun _ => false) host s k := by
  obtain ⟨k, hk, hpass, hend | ⟨-, -, -, hstop⟩⟩ := hostLoop_ends (fun _ => false) host s
  · exact ⟨k, hk, hpass, hend⟩
  · exact absurd hstop (by simp)

/-- Settles O56: the run loop never stops inside a round, continue mode does where B is set. -/
theorem loopsStopAtFirstBoundaryOrBreak : Obligations.LoopsStopAtFirstBoundaryOrBreak := by
  unfold Obligations.LoopsStopAtFirstBoundaryOrBreak
  intro host s
  obtain ⟨k, hk, hpass, hrun, hhalt⟩ := runLoop_ends host s
  exact ⟨⟨k, hk, hrun, fun j hj => (hpass j hj).1, hhalt⟩, hostLoop_ends (·.flags.b) host s⟩

/-! ## Loops without transactions between the steps -/

theorem transact_step_stepsTo (s : State) : StepsTo s (transact .step s).2 := by
  obtain ⟨t, ht⟩ := everyStepAnswersNext.1 s
  rw [transact_step ht]
  exact ht

theorem afterRounds_unattended (n : Nat) (s : State) : afterRounds (unattended n) s = afterSteps n s := by
  induction n generalizing s with
  | zero => rfl
  | succ n ih => exact ih (transact .step s).2

theorem take_unattended {k fuel : Nat} (h : k ≤ fuel) : (unattended fuel).take k = unattended k := by
  rw [unattended, List.take_replicate, Nat.min_eq_left h, unattended]

theorem afterRounds_take_unattended {k fuel : Nat} (h : k ≤ fuel) (s : State) :
    afterRounds ((unattended fuel).take k) s = afterSteps k s := by
  rw [take_unattended h, afterRounds_unattended]

theorem length_unattended (fuel : Nat) : (unattended fuel).length = fuel := List.length_replicate

theorem afterSteps_halted (n : Nat) (s : State) : (afterSteps n s).halted = s.halted := by
  induction n generalizing s with
  | zero => rfl
  | succ n ih => exact (ih _).trans (step_keeps_halted (transact_step_stepsTo s))

theorem afterSteps_one_after (n : Nat) (s : State) : afterSteps 1 (afterSteps n s) = afterSteps (n + 1) s := by
  induction n generalizing s with
  | zero => rfl
  | succ n ih => exact ih (transact .step s).2

/-- Steps do not set `halted`, so an unattended loop that ends at a boundary ends at the last. -/
theorem endsAtBoundary_unattended {stop : State → Bool} {fuel k : Nat} {s : State} (hrun : s.halted = false)
    (hk : k ≤ fuel) (h : EndsAtBoundary stop (unattended fuel) s k) :
    k = fuel ∧ hostLoop stop (unattended fuel) s = afterSteps fuel s := by
  obtain ⟨he, hhalt⟩ := h
  rw [length_unattended, afterRounds_take_unattended hk, afterSteps_halted, hrun] at hhalt
  obtain rfl : k = fuel := Nat.le_antisymm hk (Nat.le_of_not_lt fun hlt => absurd (hhalt hlt) (by decide))
  exact ⟨rfl, he.trans (afterRounds_take_unattended le_rfl s)⟩

theorem runLoop_unattended {s : State} (fuel : Nat) (hrun : s.halted = false) :
    runLoop (unattended fuel) s = afterSteps fuel s := by
  obtain ⟨k, hk, -, hend⟩ := runLoop_ends (unattended fuel) s
  exact (endsAtBoundary_unattended hrun (length_unattended fuel ▸ hk) hend).2

theorem continueMode_unattended {s : State} (fuel : Nat) (hrun : s.halted = false) :
    ∃ k, k ≤ fuel ∧ (0 < fuel → 0 < k) ∧ continueMode (unattended fuel) s = afterSteps k s ∧
      (∀ j, 0 < j → j < k → (afterSteps j s).flags.b = false) ∧ (k < fuel → (afterSteps k s).flags.b = true) := by
  obtain ⟨k, hk, hpass, hend⟩ := hostLoop_ends (·.flags.b) (unattended fuel) s
  rw [length_unattended] at hk
  have hclear (j : Nat) (h0 : 0 < j) (hj : j ≤ k) : (afterSteps j s).flags.b = false := by
    obtain ⟨j, rfl⟩ := Nat.exists_eq_add_one.mpr h0
    have hb := (hpass j hj).2
    rwa [afterRounds_take_unattended (by omega), afterSteps_one_after] at hb
  obtain hend | ⟨he, hlt, -, hb⟩ := hend
  · obtain ⟨rfl, he⟩ := endsAtBoundary_unattended hrun hk hend
    exact ⟨k, le_rfl, id, he, fun j h0 hj => hclear j h0 hj.le, fun h => absurd h (lt_irrefl k)⟩
  · rw [length_unattended] at hlt
    rw [afterRounds_take_unattended hk, afterSteps_one_after] at he hb
    exact ⟨k + 1, hlt, fun _ => Nat.succ_pos k, he, fun j h0 hj => hclear j h0 (Nat.le_of_lt_succ hj), fun _ => hb⟩

/-- From B = 0 only a completed step sets B, so continue mode and the break-stop agree. -/
theorem breakStop_iff_continueMode (fuel : Nat) {s : State} (t : State) (hrun : s.halted = false)
    (hb : s.flags.b = false) :
    BreakStop (List.replicate fuel .step) s t ↔ continueMode (unattended fuel) s = t ∧ t.flags.b = true := by
  induction fuel generalizing s with
  | zero =>
    refine iff_of_false (not_breakStop_nil s t) ?_
    rintro ⟨rfl, ht⟩
    exact absurd (hb.symm.trans ht) (by decide)
  | succ fuel ih =>
    have hstep := transact_step_stepsTo s
    rw [List.replicate_succ, breakStop_step hstep]
    cases hu : (transact .step s).2.flags.b with
    | true =>
      have hok : (transact .step s).2.noFault := by
        by_contra bad
        have hkept : (transact .step s).2.flags.b = s.flags.b := congrArg Flags.b ((breakFlagAfterStep _ _ hstep).1 bad)
        rw [hu, hb] at hkept
        exact absurd hkept (by decide)
      have hstop : continueMode (unattended (fuel + 1)) s = (transact .step s).2 := hostLoop_stop _ _ hrun hu
      rw [hstop]
      constructor
      · rintro (⟨-, -, rfl⟩ | ⟨hnot, -⟩)
        · exact ⟨rfl, hu⟩
        · exact absurd ⟨hok, rfl⟩ hnot
      · rintro ⟨rfl, -⟩
        exact .inl ⟨hok, rfl, rfl⟩
    | false =>
      have hround : continueMode (unattended (fuel + 1)) s = continueMode (unattended fuel) (transact .step s).2 :=
        hostLoop_round _ _ hrun hu
      rw [hround, ← ih ((step_keeps_halted hstep).trans hrun) hu]
      simp

/-- Settles O55: an unattended loop is a row of steps, cut where continue mode sees B. -/
theorem hostLoopsStop : Obligations.HostLoopsStop :=
  fun fuel _ hrun => ⟨runLoop_unattended fuel hrun, continueMode_unattended fuel hrun,
    fun hb t => breakStop_iff_continueMode fuel t hrun hb⟩

end Sys2Proof.Machine
end
